-- ==== Sys2Proof/Word.lean ====
section
/-! DEFINITION. The word types of the engine (00_scope.md R8): bytes, 32-bit command and register words, 64-bit lanes. -/

namespace Sys2Proof

/-- Unsigned 8 bits (R8 `Byte`). -/
abbrev Byte := BitVec 8

/-- Unsigned 32 bits: a command word (R60) or a control register (10_state.md R25 to R29). -/
abbrev Word := BitVec 32

/-- Unsigned 64 bits (R8 `Lane`). -/
abbrev Lane := BitVec 64

end Sys2Proof
end

