-- ==== Sys2Proof/Config.lean ====
section
/-! DEFINITION. What is fixed for one engine: the fixed parameters of 00_scope.md R5, the open parameter `MAX_BLOCKS` of
R6, and the free value that 10_state.md R35 leaves open. `BASE`, `BUS` and `T_*` of R6 are read by no rule and have no
place here (log entry 13). -/

namespace Sys2Proof

/-- `RATE`, the bytes exchanged per block (R5). -/
@[simp] abbrev rate : Nat := 136

/-- `RATE_LANES`, the lanes 0..16 that hold the rate (R5). -/
@[simp] abbrev rateLanes : Nat := 17

/-- `PAD_FIRST`, OR-ed into the first padding byte (R5). -/
@[simp] abbrev padFirst : Byte := 0x01

/-- `PAD_LAST`, OR-ed into the last padding byte (R5). -/
@[simp] abbrev padLast : Byte := 0x80

/-- The open parameter of R6. `MAX_BLOCKS` is an integer in 1..65536, so the index of the last 136-byte slot
(43_sponge.md R123: "`k = MAX_BLOCKS - 1` is the last slot") is in 0..65535 and is what is stored (log entry 1). -/
structure Config where
  lastSlot : Fin 65536
  deriving DecidableEq, Repr

/-- `MAX_BLOCKS`, the number of 136-byte blocks the message buffer holds (R6). -/
def Config.maxBlocks (c : Config) : Nat := c.lastSlot.val + 1

/-- `MSG_CAP = 136 * MAX_BLOCKS`, the bytes of the message buffer (R6). -/
def Config.msgCap (c : Config) : Nat := rate * c.maxBlocks

/-- The default of R6: `MAX_BLOCKS = 32`, so `MSG_CAP = 4352`. -/
def Config.standard : Config := { lastSlot := 31 }

/-- What the byte at a buffer offset holds after a reset until something writes it: "each byte holds an arbitrary value,
which then stays fixed until written" (10_state.md R35, 20_memory.md R54). The first argument counts the resets, since
every reset is a fresh draw (93 I6); the second is the buffer offset. It has no body: nothing can be proved of its values
(log entries 2 and 3). -/
opaque Config.msgDraw : Nat → Nat → Byte

end Sys2Proof
end

