-- ==== Sys2Proof/Syntax.lean ====
section
/-! DEFINITION. The seven commands (30_encoding.md R63, R66), one constructor for each row of spec/opcode_table.json.
Operands are the byte counts and the block index of R62, natural numbers; `Instr.wf` bounds them by their fields. -/

namespace Sys2Proof

/-- The engine's instruction set: R66's `Command` without `ILLEGAL(w)`, which is no command of the table and is what the
decoder answers for every other word. -/
inductive Instr where
  /-- `INIT` (43_sponge.md R122). -/
  | init
  /-- `PERMUTE` (41_permutation.md R95). -/
  | permute
  /-- `PAD len` (42_padding.md R107): the message is `MSG[0 .. len)`. -/
  | pad (len : Nat)
  /-- `ABSORB k, n` (43_sponge.md R123): block index `k`, claimed block length `n`. -/
  | absorb (k n : Nat)
  /-- `SQUEEZE` (43_sponge.md R124). -/
  | squeeze
  /-- `HASH len` (44_hash_pipeline.md R137): the message is `MSG[0 .. len)`. -/
  | hash (len : Nat)
  /-- `CLRERR` (45_system_host.md R150). -/
  | clrerr
  deriving DecidableEq, Repr

end Sys2Proof
end

