-- ==== Sys2Proof/WellFormed.lean ====
section
/-! DEFINITION. Which instruction terms are commands of the machine: each operand fits its field (30_encoding.md R62, and
R66's "for `len < 2^24`, `n < 256`, `k < 65536`"). -/

namespace Sys2Proof

/-- Every operand is a value of its field. -/
def Instr.wf : Instr → Bool
  | .init => true
  | .permute => true
  | .pad len => decide (len < 2 ^ 24)
  | .absorb k n => decide (k < 2 ^ 16) && decide (n < 2 ^ 8)
  | .squeeze => true
  | .hash len => decide (len < 2 ^ 24)
  | .clrerr => true

end Sys2Proof
end

