-- ==== Sys2Proof/Decode.lean ====
section
/-! DEFINITION. The command word: its fields, the decoder of 30_encoding.md R66 (total on 32-bit words, every word that is
no command rejected as `illegal w`), and the encoder, written from the formats of R61. -/

namespace Sys2Proof

/-- Bits 31:24, the opcode (R61). -/
def opField (w : Word) : BitVec 8 := w.extractLsb' 24 8

/-- Bits 23:0, the operand field of formats `Z` and `L` (R61). -/
def lenField (w : Word) : BitVec 24 := w.extractLsb' 0 24

/-- Bits 23:16, the claimed block length of format `B` (R61). -/
def nField (w : Word) : BitVec 8 := w.extractLsb' 16 8

/-- Bits 15:0, the block index of format `B` (R61). -/
def kField (w : Word) : BitVec 16 := w.extractLsb' 0 16

/-- What a word decodes to: R66's type `Command`, the eighth alternative on its own. -/
inductive Decoded where
  /-- One of the seven commands. -/
  | command (i : Instr)
  /-- `ILLEGAL(w)`: the word is none of them (R64). -/
  | illegal (w : Word)
  deriving DecidableEq, Repr

/-- `decode(w)` of R66, line by line. -/
def decode (w : Word) : Decoded :=
  if opField w = 0x01 ∧ lenField w = 0 then .command .init
  else if opField w = 0x02 ∧ lenField w = 0 then .command .permute
  else if opField w = 0x03 then .command (.pad (lenField w).toNat)
  else if opField w = 0x04 then .command (.absorb (kField w).toNat (nField w).toNat)
  else if opField w = 0x05 ∧ lenField w = 0 then .command .squeeze
  else if opField w = 0x06 then .command (.hash (lenField w).toNat)
  else if opField w = 0x07 ∧ lenField w = 0 then .command .clrerr
  else .illegal w

/-- Format `Z`: the opcode, then 24 zero bits (R61). -/
def wordZ (op : BitVec 8) : Word := op ++ 0#24

/-- Format `L`: the opcode, then `len` (R61). -/
def wordL (op : BitVec 8) (len : Nat) : Word := op ++ BitVec.ofNat 24 len

/-- Format `B`: the opcode, then `n`, then `k` (R61). -/
def wordB (op : BitVec 8) (n k : Nat) : Word := op ++ BitVec.ofNat 8 n ++ BitVec.ofNat 16 k

/-- `encode(c)` of R66. An operand that does not fit its field loses its high bits, which no well-formed command has
(log entry 10). -/
def encode : Instr → Word
  | .init => wordZ 0x01
  | .permute => wordZ 0x02
  | .pad len => wordL 0x03 len
  | .absorb k n => wordB 0x04 n k
  | .squeeze => wordZ 0x05
  | .hash len => wordL 0x06 len
  | .clrerr => wordZ 0x07

/-- The command word whose low `nbits` bits are those of `w` and whose other bits are 0. -/
def tableWord (nbits w : Nat) : Word := BitVec.ofNat 32 (w % 2 ^ nbits)

/-- What the decoder reads from a word numbered as spec/opcode_table.json numbers it. The data bit `n` of the `CMD` write
is bit `n` of the word (R60), so there is no byte order to choose. -/
def decodeTableWord (nbits w : Nat) : Option Instr :=
  match decode (tableWord nbits w) with
  | .command i => some i
  | .illegal _ => none

end Sys2Proof
end

