-- ==== Sys2Proof/Machine/State.lean ====
section
/-! DEFINITION. The state of one engine (10_state.md R20), the events and responses of its host port (20_memory.md R40), the
ways a step can stop, and the state after reset (R35). -/

namespace Sys2Proof.Machine

/-- Why the machine stops with a fault. Nobody raises one: "Nothing in this hardware is `stuck`: every command and every
permitted transaction completes" (93, after I14; 60_exceptions.md R183), and a transaction that is not permitted gets the
response `BusError` (R170), so the type has no constructor. Safe: no run of the model ends where the engine goes on. -/
inductive Fault where
  deriving DecidableEq, Repr

/-- Why the model gives an instruction no meaning. -/
inductive Refusal where
  /-- Raised by an arm of Dispatch.lean for an instruction that has no meaning in the model yet; no arm does. Safe: the
  run stops. -/
  | notModelled (mnemonic : String)
  deriving DecidableEq, Repr

/-- The four command errors (60_exceptions.md R165). -/
inductive CmdError where
  /-- Code 1: `ABSORB k, n` with `n != 136` (R166). -/
  | invalidBlockSize
  /-- Code 2: the word decodes to `ILLEGAL(w)` (R167). -/
  | illegalCommand
  /-- Code 3: `PAD len` or `HASH len` with `len >= MSG_CAP` (R168). -/
  | lengthOutOfRange
  /-- Code 4: `ABSORB k, 136` with `k >= MAX_BLOCKS` (R169). -/
  | blockOutOfRange
  deriving DecidableEq, Repr

/-- `STATUS.STICKY`, bits 7:4: one bit for each command error (10_state.md R25). -/
structure Sticky where
  /-- Bit 4. -/
  ibs : Bool
  /-- Bit 5. -/
  ill : Bool
  /-- Bit 6. -/
  len : Bool
  /-- Bit 7. -/
  blk : Bool
  deriving DecidableEq, Repr

/-- The `STATUS` register (R25). Its reserved bits are hard-wired to 0 and `ERR` has exactly five values (93 I10, I11), so
what is stored is the two fields; `Status.word` is the 32-bit value the host reads (log entry 7). -/
structure Status where
  /-- `ERR`, bits 2:0: `none` is 0 `OK`. -/
  err : Option CmdError
  sticky : Sticky
  deriving DecidableEq, Repr

/-- A `State` of R8: the 25 lanes, index `x + 5*y` (R21). -/
abbrev Lanes := Vector Lane 25

/-- `ZERO` (R8). -/
def Lanes.zero : Lanes := Vector.replicate 25 0

/-- A `Digest` of R8: 32 bytes. -/
abbrev Digest := Vector Byte 32

/-- The bytes of the message buffer written since the last reset, by buffer offset, offsets strictly rising
(`Memory.wf`). An offset that is not listed is unwritten (log entry 2). -/
abbrev Memory := List Host.Cell

/-- The size of a transaction in bytes (20_memory.md R40). -/
inductive AccessSize where
  | one
  | four
  | eight
  deriving DecidableEq, Repr

/-- The number a transaction moves: `8*size` bits (R40, R43). -/
inductive Data where
  | b1 (v : Byte)
  | b4 (v : Word)
  | b8 (v : Lane)
  deriving DecidableEq, Repr

/-- What the outside does to the engine: a transaction of the host port (R40), or reset (70_reset_and_hazards.md R190). -/
inductive HostEvent where
  /-- `HostRead(off, size)`. -/
  | read (off : BitVec 24) (size : AccessSize)
  /-- `HostWrite(off, size, v)`; the size is that of `v`. -/
  | write (off : BitVec 24) (v : Data)
  /-- Reset, between transactions (log entry 5). -/
  | reset
  deriving DecidableEq, Repr

/-- The response to a transaction (R40). -/
inductive Response where
  /-- `Data(v)`. -/
  | data (v : Data)
  /-- `Ok`. -/
  | ok
  /-- `BusError`. -/
  | busError
  deriving DecidableEq, Repr

/-- One engine and its host port. The first seven fields are the spec's complete state (R20); the last four are the
model's own (log entries 1, 3, 4). -/
@[ext]
structure State where
  /-- `A[0]` .. `A[24]` (R21). -/
  lanes : Lanes
  /-- `MSG` (R32). -/
  msg : Memory
  /-- `MLEN`, bits 23:0; bits 31:24 read 0 (R27). -/
  mlen : BitVec 24
  /-- `PLEN`, bits 23:0; bits 31:24 read 0 (R28). -/
  plen : BitVec 24
  /-- `DIGEST[0]` .. `DIGEST[31]` (R30). -/
  digest : Digest
  /-- `STATUS` (R25). -/
  status : Status
  /-- `ERRINFO` (R29). -/
  errinfo : Word
  /-- The parameter `MAX_BLOCKS` of this engine (00_scope.md R6); nothing changes it. -/
  cfg : Config
  /-- How many resets lie behind: picks the draw of the unwritten buffer bytes. -/
  draw : Nat
  /-- The events at the host port not yet served, oldest first: "a transaction presented meanwhile is held, not lost and
  not refused" (R13). -/
  port : List HostEvent
  /-- The response to the last transaction served. -/
  response : Option Response
  deriving DecidableEq, Repr

/-- No sticky bit set. -/
def Sticky.clear : Sticky := { ibs := false, ill := false, len := false, blk := false }

/-- The state after reset (R35, R190) of the engine with the default parameter (R6), with nothing at its port. `MSG` lists
nothing: no byte has been written. `draw`, `port` and `response` are the model's own (log entries 3 and 4). -/
def State.reset : State where
  lanes := Lanes.zero
  msg := []
  mlen := 0
  plen := 0
  digest := Vector.replicate 32 0
  status := { err := none, sticky := Sticky.clear }
  errinfo := 0
  cfg := Config.standard
  draw := 0
  port := []
  response := none

end Sys2Proof.Machine
end

