-- ==== Sys2Proof/Machine/Flags.lean ====
section
/-! DEFINITION. The `STATUS` register: the value the host reads, and the three ways a command writes it
(10_state.md R25; 60_exceptions.md R165, R172; 45_system_host.md R150). -/

namespace Sys2Proof.Machine

/-- The code of a command error (R165). -/
def CmdError.code : CmdError → BitVec 3
  | .invalidBlockSize => 1
  | .illegalCommand => 2
  | .lengthOutOfRange => 3
  | .blockOutOfRange => 4

/-- The field `ERR` (R25): 0 is `OK`. -/
def errField : Option CmdError → BitVec 3
  | none => 0
  | some e => e.code

/-- The field `STICKY` as 4 bits; bit `c - 1` belongs to error code `c` (R25). -/
def Sticky.bits (s : Sticky) : BitVec 4 :=
  BitVec.ofBool s.blk ++ BitVec.ofBool s.len ++ BitVec.ofBool s.ill ++ BitVec.ofBool s.ibs

/-- The 32 bits of `STATUS` (R25): 31:8 read 0, 7:4 `STICKY`, 3 reads 0, 2:0 `ERR`. -/
def Status.word (s : Status) : Word := 0#24 ++ s.sticky.bits ++ 0#1 ++ errField s.err

/-- The sticky bit of a command error (R25). -/
def Sticky.has (s : Sticky) : CmdError → Bool
  | .invalidBlockSize => s.ibs
  | .illegalCommand => s.ill
  | .lengthOutOfRange => s.len
  | .blockOutOfRange => s.blk

/-- The sticky bit of one command error set, the others unchanged (R172). -/
def Sticky.mark (s : Sticky) : CmdError → Sticky
  | .invalidBlockSize => { s with ibs := true }
  | .illegalCommand => { s with ill := true }
  | .lengthOutOfRange => { s with len := true }
  | .blockOutOfRange => { s with blk := true }

/-- `STATUS` after a success: `ERR <- 0`, `STICKY` unchanged (R172). -/
def Status.succeed (s : Status) : Status := { s with err := none }

/-- `STATUS` after an error: `ERR <- c`, its sticky bit set (R172). -/
def Status.fail (s : Status) (e : CmdError) : Status := { err := some e, sticky := s.sticky.mark e }

/-- `STATUS.STICKY <- 0` (R150). -/
def Status.clearSticky (s : Status) : Status := { s with sticky := Sticky.clear }

end Sys2Proof.Machine
end

