-- ==== Sys2Proof/Machine/Operands.lean ====
section
/-! DEFINITION. What the operands of a command stand for: the padded length of a message and the place of a block
(42_padding.md R101, R107; 30_encoding.md R62; 43_sponge.md R123). -/

namespace Sys2Proof.Machine

/-- `rem = 136 - (L mod 136)`, the number of padding bytes, 1..136 (R100). -/
def padCount (len : Nat) : Nat := rate - len % rate

/-- The number of blocks of the padded message, `len div 136 + 1` (R101). -/
def blockCount (len : Nat) : Nat := len / rate + 1

/-- `plen = 136 * (len div 136 + 1)` (R101, R107). -/
def paddedLength (len : Nat) : Nat := rate * blockCount len

/-- The buffer offset of the first byte of block `k`, `136 * k` (R62). -/
def blockOffset (k : Nat) : Nat := rate * k

end Sys2Proof.Machine
end

