-- ==== Sys2Proof/Machine/Ops.lean ====
section
/-! DEFINITION. The named operations over the engine's state: one byte of `MSG` and sequences of them (00_scope.md R12),
the registers, how a command ends (60_exceptions.md R172), and reset (70_reset_and_hazards.md R190). -/

namespace Sys2Proof.Machine

/-- What an offset that is not listed reads as: unwritten. -/
def Memory.unlisted : Option Byte := none

/-- The byte written at an offset since the last reset, if any. -/
def Memory.get? : Memory → Nat → Option Byte
  | [], _ => Memory.unlisted
  | (a, v) :: m, x => if x = a then some v else Memory.get? m x

/-- Write the byte at an offset, keeping the cells in order. -/
def Memory.set : Memory → Nat → Byte → Memory
  | [], x, w => [(x, w)]
  | (a, v) :: m, x, w =>
    if x < a then (x, w) :: (a, v) :: m
    else if x = a then (x, w) :: m
    else (a, v) :: Memory.set m x w

/-- The canonical form: offsets strictly rising. Every cell holds a written byte, and an unlisted offset reads as
unwritten, so no cell equals what an unlisted offset reads as. -/
abbrev Memory.wf (m : Memory) : Prop := m.Pairwise fun c d => c.1 < d.1

/-- `MSG[a]`, read: the byte last written, else the free value it has held since reset (20_memory.md R54). -/
def State.msgByte (s : State) (a : Nat) : Byte := (s.msg.get? a).getD (Config.msgDraw s.draw a)

/-- `MSG[a] <- v` (R12). -/
def State.setByte (s : State) (a : Nat) (v : Byte) : State := { s with msg := s.msg.set a v }

/-- `MSG[a] <- MSG[a] | v`. -/
def State.orByte (s : State) (a : Nat) (v : Byte) : State := s.setByte a (s.msgByte a ||| v)

/-- `MemRead(a, n)`: the bytes `MSG[a..a+n)`, lowest offset first (R12, 20_memory.md R44). -/
def State.memRead (s : State) (a n : Nat) : List Byte := (List.range n).map fun i => s.msgByte (a + i)

/-- `MemWrite(a, n, b)` with `n = len(b)`: write `MSG[a..a+n)` (R12, R44). -/
def State.memWrite (s : State) (a : Nat) : List Byte → State
  | [] => s
  | b :: bs => (s.setByte a b).memWrite (a + 1) bs

/-- `A <- S`: all 25 lanes at once (R12). -/
def State.setLanes (s : State) (l : Lanes) : State := { s with lanes := l }

/-- `A[i] <- v` (R12). -/
def State.setLane (s : State) (i : Fin 25) (v : Lane) : State := { s with lanes := s.lanes.set i v }

/-- `DIGEST <- d` (10_state.md R30). -/
def State.setDigest (s : State) (d : Digest) : State := { s with digest := d }

/-- `MLEN <- len; PLEN <- plen` (10_state.md R27, R28). -/
def State.setLengths (s : State) (len plen : Nat) : State :=
  { s with mlen := BitVec.ofNat 24 len, plen := BitVec.ofNat 24 plen }

/-- `complete`: success (R172). -/
def State.complete (s : State) : State := { s with status := s.status.succeed }

/-- `raise E(w)`: error completion, the analogue of taking an exception (R172). It saves no program counter, changes no
mode and goes nowhere; nothing but `STATUS` and `ERRINFO` changes (R173). -/
def State.raise (s : State) (e : CmdError) (w : Word) : State :=
  { s with status := s.status.fail e, errinfo := w }

/-- The error record cleared: `STATUS.STICKY <- 0; ERRINFO <- 0` (45_system_host.md R150). There is no return from an
error; this is all that ever undoes what `raise` records (R174). -/
def State.clearErrors (s : State) : State := { s with status := s.status.clearSticky, errinfo := 0 }

/-- The four registers the host can read (20_memory.md R41). -/
inductive CtlReg where
  | status
  | mlen
  | plen
  | errinfo
  deriving DecidableEq, Repr

/-- The 32 bits of a register (R25, R27, R28, R29): the hard-wired bits read 0. -/
def State.readReg (s : State) : CtlReg → Word
  | .status => s.status.word
  | .mlen => 0#8 ++ s.mlen
  | .plen => 0#8 ++ s.plen
  | .errinfo => s.errinfo

/-- The response of the host port (20_memory.md R40). -/
def State.respond (s : State) (r : Response) : State := { s with response := some r }

/-- Reset (R190, R35): everything as `State.reset` has it, for this engine's parameter, with every buffer byte a fresh
draw. What waits at the port was issued after the reset and stays (log entry 5). -/
def State.applyReset (s : State) : State :=
  { State.reset with cfg := s.cfg, draw := s.draw + 1, port := s.port }

end Sys2Proof.Machine
end

