-- ==== Sys2Proof/Machine/Padding.lean ====
section
/-! DEFINITION. The padding unit (42_padding.md): the function `pad` and the command `PAD`. -/

namespace Sys2Proof.Machine

/-- `zeros(n)`: `n` bytes, each 0x00 (R100). -/
def zeros (n : Nat) : List Byte := List.replicate n 0

/-- `pad(M)` (R100): zero bytes appended, then the two marks OR-ed in. -/
def padMessage (M : List Byte) : List Byte :=
  ((M ++ zeros (padCount M.length)).modify M.length (· ||| padFirst)).modify
    (M.length + padCount M.length - 1) (· ||| padLast)

/-- The padding of the message `MSG[0 .. len)` in the buffer, as `PAD` and `HASH` do it (R107, R137): zero
`MSG[len .. plen)`, OR the two marks in, record both lengths. -/
def State.padBuffer (s : State) (len : Nat) : State :=
  (((s.memWrite len (zeros (padCount len))).orByte len padFirst).orByte (paddedLength len - 1) padLast).setLengths
    len (paddedLength len)

/-- `PAD len` (R107). -/
def execPad (len : Nat) (s : State) : Host.Outcome State Fault Refusal :=
  if s.cfg.msgCap < paddedLength len then .next (s.raise .lengthOutOfRange (encode (.pad len)))
  else .next (s.padBuffer len).complete

end Sys2Proof.Machine
end

