-- ==== Sys2Proof/Machine/Bits.lean ====
section
/-! DEFINITION. Lane rotation and the conversions between bytes and lanes (00_scope.md R10, R11). -/

namespace Sys2Proof.Machine

/-- `rol64(v, n)` for `0 <= n <= 63` (R10). -/
def rol64 (v : Lane) (n : Nat) : Lane :=
  if n = 0 then v else (v <<< n) ||| (v >>> (64 - n))

/-- The bytes of a list read as a number, the first byte least significant. -/
def leNat : List Byte → Nat
  | [] => 0
  | b :: bs => b.toNat + 2 ^ 8 * leNat bs

/-- `le64(b)` for 8 bytes: `b[0] + b[1]*2^8 + ... + b[7]*2^56` (R11). -/
def le64 (b : List Byte) : Lane := BitVec.ofNat 64 (leNat b)

/-- Byte `k` of a lane, `v[8k+7:8k]` (R11). -/
def laneByte (v : Lane) (k : Nat) : Byte := v.extractLsb' (8 * k) 8

/-- `bytes_le(v)`: the 8 bytes of a lane, least significant first (R11). -/
def bytesLe (v : Lane) : List Byte := (List.range 8).map (laneByte v)

/-- `bswap64(v)`: the lane whose byte `k` is byte `7-k` of `v` (R11). -/
def bswap64 (v : Lane) : Lane := le64 (bytesLe v).reverse

end Sys2Proof.Machine
end

