-- ==== Sys2Proof/Machine/Permutation.lean ====
section
/-! DEFINITION. The permutation unit (41_permutation.md): the tables `RC`, `RHO`, `PI`, `PISRC`, the five steps, the round,
`permute`, and the command `PERMUTE`. Every step is a function from the old lanes to fresh lanes (R94). -/

namespace Sys2Proof.Machine

/-- The column "bits that are 1" of the table of R80, one row for each round, with the value of the row beside it
(log entry 11). -/
def roundBits : Vector (List Nat) 24 := #v[
  [0],                     -- 0: 0x0000000000000001
  [1, 7, 15],              -- 1: 0x0000000000008082
  [1, 3, 7, 15, 63],       -- 2: 0x800000000000808A
  [15, 31, 63],            -- 3: 0x8000000080008000
  [0, 1, 3, 7, 15],        -- 4: 0x000000000000808B
  [0, 31],                 -- 5: 0x0000000080000001
  [0, 7, 15, 31, 63],      -- 6: 0x8000000080008081
  [0, 3, 15, 63],          -- 7: 0x8000000000008009
  [1, 3, 7],               -- 8: 0x000000000000008A
  [3, 7],                  -- 9: 0x0000000000000088
  [0, 3, 15, 31],          -- 10: 0x0000000080008009
  [1, 3, 31],              -- 11: 0x000000008000000A
  [0, 1, 3, 7, 15, 31],    -- 12: 0x000000008000808B
  [0, 1, 3, 7, 63],        -- 13: 0x800000000000008B
  [0, 3, 7, 15, 63],       -- 14: 0x8000000000008089
  [0, 1, 15, 63],          -- 15: 0x8000000000008003
  [1, 15, 63],             -- 16: 0x8000000000008002
  [7, 63],                 -- 17: 0x8000000000000080
  [1, 3, 15],              -- 18: 0x000000000000800A
  [1, 3, 31, 63],          -- 19: 0x800000008000000A
  [0, 7, 15, 31, 63],      -- 20: 0x8000000080008081
  [7, 15, 63],             -- 21: 0x8000000000008080
  [0, 31],                 -- 22: 0x0000000080000001
  [3, 15, 31, 63]]         -- 23: 0x8000000080008008

/-- `RC[r]`, the round constant of round `r`: the lane whose bits are those of its row (R80). -/
def RC (r : Fin 24) : Lane := BitVec.ofNat 64 ((roundBits[r].map (2 ^ ·)).sum)

/-- What the rotation table holds for one lane (R82, R83). -/
structure LaneRow where
  /-- `RHO`, the amount the lane is rotated by. -/
  amount : Fin 64
  /-- `PI`, the index the lane moves to. -/
  dest : Fin 25
  /-- `PISRC`, the index whose lane arrives here. -/
  source : Fin 25
  deriving DecidableEq, Repr

/-- The rows of the table of R82, with the inverse of R83 as third entry, in index order (log entry 11). -/
def laneTable : Vector LaneRow 25 := #v[
  ⟨0, 0, 0⟩, ⟨1, 10, 6⟩, ⟨62, 20, 12⟩, ⟨28, 5, 18⟩, ⟨27, 15, 24⟩,
  ⟨36, 16, 3⟩, ⟨44, 1, 9⟩, ⟨6, 11, 10⟩, ⟨55, 21, 16⟩, ⟨20, 6, 22⟩,
  ⟨3, 7, 1⟩, ⟨10, 17, 7⟩, ⟨43, 2, 13⟩, ⟨25, 12, 19⟩, ⟨39, 22, 20⟩,
  ⟨41, 23, 4⟩, ⟨45, 8, 5⟩, ⟨15, 18, 11⟩, ⟨21, 3, 17⟩, ⟨8, 13, 23⟩,
  ⟨18, 14, 2⟩, ⟨2, 24, 8⟩, ⟨61, 9, 14⟩, ⟨56, 19, 15⟩, ⟨14, 4, 21⟩]

/-- `RHO[i]`, the rotation amount of lane `i` (R82). -/
def RHO (i : Fin 25) : Fin 64 := laneTable[i].amount

/-- `PI[i]`, the index that lane `i` moves to (R83). -/
def PI (i : Fin 25) : Fin 25 := laneTable[i].dest

/-- `PISRC[j]`, the index whose lane arrives at `j`, the inverse of `PI` (R83). -/
def PISRC (j : Fin 25) : Fin 25 := laneTable[j].source

/-- The index `x + 5*y` of the lane with coordinates `(x, y)` (10_state.md R21). -/
def laneIndex (x y : Fin 5) : Fin 25 := ⟨x.val + 5 * y.val, by omega⟩

/-- `x = i mod 5` (10_state.md R22). -/
def laneX (i : Fin 25) : Fin 5 := ⟨i.val % 5, by omega⟩

/-- `y = i div 5` (10_state.md R22). -/
def laneY (i : Fin 25) : Fin 5 := ⟨i.val / 5, by omega⟩

/-- `C[x]`: the XOR of the five lanes of column `x` (R85). -/
def thetaC (S : Lanes) (x : Fin 5) : Lane :=
  S[laneIndex x 0] ^^^ S[laneIndex x 1] ^^^ S[laneIndex x 2] ^^^ S[laneIndex x 3] ^^^ S[laneIndex x 4]

/-- `D[x] = C[(x+4) mod 5] ^ rol64(C[(x+1) mod 5], 1)` (R85). -/
def thetaD (S : Lanes) (x : Fin 5) : Lane := thetaC S (x + 4) ^^^ rol64 (thetaC S (x + 1)) 1

/-- `theta(S)` (R85). -/
def theta (S : Lanes) : Lanes := Vector.ofFn fun i => S[i] ^^^ thetaD S (laneX i)

/-- `rho(S)` (R86). -/
def rho (S : Lanes) : Lanes := Vector.ofFn fun i => rol64 S[i] (RHO i).val

/-- `pi(S)` (R87), in its second form: "for j in 0..24: T[j] <- S[PISRC[j]]". -/
def pi (S : Lanes) : Lanes := Vector.ofFn fun j => S[PISRC j]

/-- `chi(S)` (R88). -/
def chi (S : Lanes) : Lanes := Vector.ofFn fun i =>
  S[i] ^^^ (~~~ S[laneIndex (laneX i + 1) (laneY i)] &&& S[laneIndex (laneX i + 2) (laneY i)])

/-- `iota(S, r)` (R89). -/
def iota (S : Lanes) (r : Fin 24) : Lanes := S.set 0 (S[0] ^^^ RC r)

/-- `round(S, r)` (R90). -/
def keccakRound (S : Lanes) (r : Fin 24) : Lanes := iota (chi (pi (rho (theta S)))) r

/-- `permute(S)`: rounds 0, 1, .., 23 in this order (R91). Irreducible, so that the elaborator never computes it
unasked; `rw [permute]` still unfolds it. -/
@[irreducible]
def permute (S : Lanes) : Lanes := (List.finRange 24).foldl keccakRound S

/-- `PERMUTE` (R95). -/
def execPermute (s : State) : Host.Outcome State Fault Refusal :=
  .next (s.setLanes (permute s.lanes)).complete

end Sys2Proof.Machine
end

