-- ==== Sys2Proof/Machine/Sponge.lean ====
section
/-! DEFINITION. The sponge unit (43_sponge.md): the functions `absorbBlock` and `squeeze` and the commands `INIT`,
`ABSORB`, `SQUEEZE`. -/

namespace Sys2Proof.Machine

/-- The effect of `absorbBlock` on the lanes (R116): `T[i] = S[i] ^ le64(blk[8i .. 8i+8))` for `i` in 0..16, lanes 17..24
unchanged (R117). -/
@[irreducible]
def xorBlock (S : Lanes) (blk : List Byte) : Lanes := Vector.ofFn fun i =>
  if i.val < rateLanes then S[i] ^^^ le64 ((blk.drop (8 * i.val)).take 8) else S[i]

/-- `absorbBlock(S, blk)` (R116): fails with `InvalidBlockSize` unless the block is exactly 136 bytes. -/
def absorbBlock (S : Lanes) (blk : List Byte) : Except CmdError Lanes :=
  if blk.length ≠ rate then .error .invalidBlockSize else .ok (xorBlock S blk)

/-- `squeeze(S)` (R120): `d[8j + k] = S[j][8k+7 : 8k]`, the least significant byte of each of lanes 0..3 first (C3). -/
@[irreducible]
def squeeze (S : Lanes) : Digest := Vector.ofFn fun b => laneByte (S[b.val / 8]'(by omega)) (b.val % 8)

/-- `INIT` (R122). -/
def execInit (s : State) : Host.Outcome State Fault Refusal := .next (s.setLanes Lanes.zero).complete

/-- `ABSORB k, n` (R123). The length check on `n` comes first; `absorbBlock` itself then gets a block of 136 bytes and
cannot fail. -/
def execAbsorb (k n : Nat) (s : State) : Host.Outcome State Fault Refusal :=
  if n ≠ rate then .next (s.raise .invalidBlockSize (encode (.absorb k n)))
  else if s.cfg.maxBlocks ≤ k then .next (s.raise .blockOutOfRange (encode (.absorb k n)))
  else
    match absorbBlock s.lanes (s.memRead (blockOffset k) rate) with
    | .ok T => .next (s.setLanes T).complete
    | .error e => .next (s.raise e (encode (.absorb k n)))

/-- `SQUEEZE` (R124): the digest from the lanes as they are, then all lanes zero. -/
def execSqueeze (s : State) : Host.Outcome State Fault Refusal :=
  .next ((s.setDigest (squeeze s.lanes)).setLanes Lanes.zero).complete

end Sys2Proof.Machine
end

