-- ==== Sys2Proof/Machine/Hash.lean ====
section
/-! DEFINITION. The hash pipeline (44_hash_pipeline.md): the function `hash` and the command `HASH`. -/

namespace Sys2Proof.Machine

/-- One turn of the sponge loop: absorb a block, then permute (R135, R137). The block of each turn is exactly 136 bytes, so
`absorbBlock` cannot fail and its effect is `xorBlock`. -/
def absorbPermute (S : Lanes) (blk : List Byte) : Lanes := permute (xorBlock S blk)

/-- The sponge loop from given lanes: blocks `0, 1, .., nb-1` in this order, each followed by a permutation (R135). -/
@[irreducible]
def spongeLoop (S : Lanes) (block : Nat → List Byte) (nb : Nat) : Lanes :=
  (List.range nb).foldl (fun T b => absorbPermute T (block b)) S

/-- Block `b` of a byte sequence, `P[136b .. 136b+136)` (R135). -/
def blockOf (P : List Byte) (b : Nat) : List Byte := (P.drop (blockOffset b)).take rate

/-- `hash(M)` (R135). -/
def hashMessage (M : List Byte) : Digest :=
  squeeze (spongeLoop Lanes.zero (blockOf (padMessage M)) (blockCount M.length))

/-- The part of `HASH` after the padding (R137): the lanes run through the blocks of the buffer from `ZERO`, the digest is
squeezed, the lanes are zeroed. -/
def State.hashBuffer (s : State) (nb : Nat) : State :=
  (s.setDigest (squeeze (spongeLoop Lanes.zero (fun b => s.memRead (blockOffset b) rate) nb))).setLanes Lanes.zero

/-- `HASH len` (R137). -/
def execHash (len : Nat) (s : State) : Host.Outcome State Fault Refusal :=
  if s.cfg.msgCap < paddedLength len then .next (s.raise .lengthOutOfRange (encode (.hash len)))
  else .next ((s.padBuffer len).hashBuffer (blockCount len)).complete

end Sys2Proof.Machine
end

