-- ==== Sys2Proof/Machine/System.lean ====
section
/-! DEFINITION. The system command `CLRERR` (45_system_host.md R150). -/

namespace Sys2Proof.Machine

/-- `CLRERR` (R150). -/
def execClrerr (s : State) : Host.Outcome State Fault Refusal := .next s.clearErrors.complete

end Sys2Proof.Machine
end

