-- ==== Sys2Proof/Machine/Dispatch.lean ====
section
/-! DEFINITION. One arm for each instruction, each a direct call of its meaning. -/

namespace Sys2Proof.Machine

def exec (i : Instr) (s : State) : Host.Outcome State Fault Refusal :=
  match i with
  | .init => Sys2Proof.Machine.execInit s
  | .permute => Sys2Proof.Machine.execPermute s
  | .pad len => Sys2Proof.Machine.execPad len s
  | .absorb k n => Sys2Proof.Machine.execAbsorb k n s
  | .squeeze => Sys2Proof.Machine.execSqueeze s
  | .hash len => Sys2Proof.Machine.execHash len s
  | .clrerr => Sys2Proof.Machine.execClrerr s

end Sys2Proof.Machine
end

