-- ==== Sys2Proof/Machine/Port.lean ====
section
/-! DEFINITION. The host port: the address map (20_memory.md R41), the access rules (R42), the data transactions
(45_system_host.md R151 to R156) and command issue (R157). -/

namespace Sys2Proof.Machine

/-- What an offset addresses (R41). -/
inductive Element where
  /-- `A[i]`, 64 bits, at `8*i`. -/
  | lane (i : Fin 25)
  /-- The command word. -/
  | cmd
  /-- One of the registers that can be read. -/
  | reg (r : CtlReg)
  /-- `DIGEST[b]`. -/
  | digest (b : Fin 32)
  /-- `MSG[a]`, `a < MSG_CAP`. -/
  | msg (a : Nat)
  deriving DecidableEq, Repr

/-- The offset of the `CMD` register (R26, R41). -/
def cmdOffset : Nat := 0x000100

/-- The offset of a register (R41). -/
def CtlReg.offset : CtlReg → Nat
  | .status => 0x000104
  | .mlen => 0x000108
  | .plen => 0x00010C
  | .errinfo => 0x000110

/-- The offset of `DIGEST[0]` (R41). -/
def digestBase : Nat := 0x000120

/-- The offset of `MSG[0]` (R41). -/
def msgBase : Nat := 0x001000

/-- The element at an offset (R41, R42): none inside an element, and none at a reserved offset. -/
def locate (c : Config) (off : Nat) : Option Element :=
  if h : off < 8 * 25 then (if off % 8 = 0 then some (.lane ⟨off / 8, by omega⟩) else none)
  else if off = cmdOffset then some .cmd
  else if off = CtlReg.status.offset then some (.reg .status)
  else if off = CtlReg.mlen.offset then some (.reg .mlen)
  else if off = CtlReg.plen.offset then some (.reg .plen)
  else if off = CtlReg.errinfo.offset then some (.reg .errinfo)
  else if h : digestBase ≤ off ∧ off - digestBase < 32 then some (.digest ⟨off - digestBase, h.2⟩)
  else if msgBase ≤ off ∧ off - msgBase < c.msgCap then some (.msg (off - msgBase))
  else none

/-- The response of `HostRead(off, size)` (R41, R42): the value of the element where the access is permitted, else
`BusError`. A read changes no state (R45). -/
def State.hostRead (s : State) (off : BitVec 24) (size : AccessSize) : Response :=
  match locate s.cfg off.toNat, size with
  | some (.lane i), .eight => .data (.b8 s.lanes[i])
  | some (.reg r), .four => .data (.b4 (s.readReg r))
  | some (.digest b), .one => .data (.b1 s.digest[b])
  | some (.msg a), .one => .data (.b1 (s.msgByte a))
  | _, _ => .busError

/-- A command that has run gets the response `Ok`, whether it succeeded or ended in an error (R157, R172). -/
def respondOk : Host.Outcome State Fault Refusal → Host.Outcome State Fault Refusal
  | .next t => .next (t.respond .ok)
  | .fault r => .fault r
  | .refused r => .refused r

/-- Command issue (R157): decode the word, which is total; an illegal word raises `IllegalCommand`; a command is executed. -/
def State.issue (s : State) (w : Word) : Host.Outcome State Fault Refusal :=
  match decode w with
  | .command i => respondOk (exec i s)
  | .illegal w => .next ((s.raise .illegalCommand w).respond .ok)

/-- `HostWrite(off, size, v)` (R41, R42): a command (R157), a lane (R153), a buffer byte (R151), else `BusError` and
nothing changes (R170). -/
def State.hostWrite (s : State) (off : BitVec 24) (v : Data) : Host.Outcome State Fault Refusal :=
  match locate s.cfg off.toNat, v with
  | some .cmd, .b4 w => s.issue w
  | some (.lane i), .b8 v => .next ((s.setLane i v).respond .ok)
  | some (.msg a), .b1 v => .next ((s.setByte a v).respond .ok)
  | _, _ => .next (s.respond .busError)

/-- Serve one event of the port: the three kinds of step and the fourth event, reset (00_scope.md R13). -/
def State.serve (s : State) : HostEvent → Host.Outcome State Fault Refusal
  | .read off size => .next (s.respond (s.hostRead off size))
  | .write off v => s.hostWrite off v
  | .reset => .next s.applyReset

end Sys2Proof.Machine
end

