-- ==== Sys2Proof/Machine/Step.lean ====
section
/-! DEFINITION. One step of the machine: the oldest event at the host port is served, to completion, before the next
(00_scope.md R13, 20_memory.md R48). -/

namespace Sys2Proof.Machine

/-- With nothing at the port the engine waits and nothing changes (20_memory.md R45); else it serves the oldest event.
Later events are held in order (70_reset_and_hazards.md R202). -/
def step (s : State) : Host.Outcome State Fault Refusal :=
  match s.port with
  | [] => .next s
  | e :: rest => ({ s with port := rest } : State).serve e

/-- The state in which the next step runs the command word `w`: the engine fetches nothing, so the word stands in a write
to `CMD` at the head of the port (log entry 12). -/
def State.withFetchWord (s : State) (nbits w : Nat) : State :=
  { s with port := .write (BitVec.ofNat 24 cmdOffset) (.b4 (tableWord nbits w)) :: s.port }

end Sys2Proof.Machine
end

