-- ==== Sys2Proof/Machine/Script.lean ====
section
/-! DEFINITION. Host scripts: the assembler lines and pseudo-instructions of 30_encoding.md R67 to R70 and the host
procedures of 44_hash_pipeline.md R140 and R141, each the sequence of port events it stands for; and a sequence of
commands run one after the other. -/

namespace Sys2Proof.Machine

/-- `CMDW w`: any word written to `CMD` (R67). -/
def cmdw (w : Word) : HostEvent := .write (BitVec.ofNat 24 cmdOffset) (.b4 w)

/-- A command line of R67. -/
def cmdLine (i : Instr) : HostEvent := cmdw (encode i)

/-- The offset of `MSG[a]` in a script line. An offset above the last one there is, `2^24 - 1` (20_memory.md R40), is that
last one, which is reserved for every `MAX_BLOCKS` (R41): such a line gets the `BusError` that 45_system_host.md R151 and
R152 give for every `a >= MSG_CAP`. DESIGN CHOICE (log entry 14): the spec does not say what such a line sends. -/
def msgOffset (a : Nat) : BitVec 24 := BitVec.ofNat 24 (min (msgBase + a) 0xFFFFFF)

/-- `WRB a, v` (R68; log entry 14 where `0x001000 + a` is no offset). -/
def wrb (a : Nat) (v : Byte) : HostEvent := .write (msgOffset a) (.b1 v)

/-- `RDB a` (R68; log entry 14 where `0x001000 + a` is no offset). -/
def rdb (a : Nat) : HostEvent := .read (msgOffset a) .one

/-- `WRL i, v` (R68). -/
def wrl (i : Fin 25) (v : Lane) : HostEvent := .write (BitVec.ofNat 24 (8 * i.val)) (.b8 v)

/-- `RDL i` (R68). -/
def rdl (i : Fin 25) : HostEvent := .read (BitVec.ofNat 24 (8 * i.val)) .eight

/-- `RDD b` (R68). -/
def rdd (b : Fin 32) : HostEvent := .read (BitVec.ofNat 24 (digestBase + b.val)) .one

/-- `RDR reg` (R68). -/
def rdr (r : CtlReg) : HostEvent := .read (BitVec.ofNat 24 r.offset) .four

/-- `LOAD a, b0 b1 .. bm` (R69): one `WRB` for each byte (log entry 14 where it runs past the last offset). -/
def load (a : Nat) : List Byte → List HostEvent
  | [] => []
  | b :: bs => wrb a b :: load (a + 1) bs

/-- `FILL a, cnt, v` (R69; log entry 14 as for `LOAD`). -/
def fill (a cnt : Nat) (v : Byte) : List HostEvent := load a (List.replicate cnt v)

/-- `ABSORBP k` (R69): absorb, then the permutation that must follow. -/
def absorbp (k : Nat) : List Instr := [.absorb k rate, .permute]

/-- `RDDIGEST` (R69). -/
def rddigest : List HostEvent := (List.finRange 32).map rdd

/-- `RDSTATE` (R69). -/
def rdstate : List HostEvent := (List.finRange 25).map rdl

/-- `WRSTATE v0 .. v24` (R69). -/
def wrstate (S : Lanes) : List HostEvent := (List.finRange 25).map fun i => wrl i S[i]

/-- The commands of `KECCAK256 len` after its `PAD`: `INIT; ABSORBP 0; ..; ABSORBP (len div 136); SQUEEZE` (R69). -/
def keccak256Tail (len : Nat) : List Instr :=
  .init :: ((List.range (blockCount len)).flatMap absorbp ++ [.squeeze])

/-- `KECCAK256 len` (R69). -/
def keccak256 (len : Nat) : List Instr := .pad len :: keccak256Tail len

/-- The streaming wrapper's `absorb(chunk)` as a host script (R140): it pads every chunk. -/
def streamAbsorb (chunk : List Byte) : List HostEvent :=
  load 0 chunk ++
    (Instr.pad chunk.length :: (List.range (blockCount chunk.length)).flatMap absorbp).map cmdLine

/-- The streaming wrapper's `finalizeAndSqueeze()` as a host script (R140). -/
def streamFinalize : List HostEvent := cmdLine .squeeze :: rddigest

/-- The host procedure of R141 for a message in pieces: the full blocks, each through slot 0, then the padded tail. -/
def hashInPieces (blocks : List (List Byte)) (tail : List Byte) : List HostEvent :=
  cmdLine .init :: (blocks.flatMap fun b => load 0 b ++ (absorbp 0).map cmdLine) ++ load 0 tail ++
    (Instr.pad tail.length :: absorbp 0 ++ [Instr.squeeze]).map cmdLine

/-- A sequence of commands, each run on the state the one before left. -/
def execAll : List Instr → State → Host.Outcome State Fault Refusal
  | [], s => .next s
  | i :: is, s =>
    match exec i s with
    | .next t => execAll is t
    | .fault r => .fault r
    | .refused r => .refused r

end Sys2Proof.Machine
end

