-- ==== Sys2Proof/Safety.lean ====
section
/-! DEFINITION. What claims call a good state: the invariant of the machine, the clean error record, and the condition under
which a command word ends in which error. -/

namespace Sys2Proof.Machine

/-- What every state the engine can reach has: the buffer's cells in canonical form and inside the buffer (10_state.md
R32), the two length registers as R28 says, and an error record that agrees with itself (60_exceptions.md R172,
45_system_host.md R150). -/
structure State.Inv (s : State) : Prop where
  /-- The canonical form of the buffer's cells. -/
  msg_wf : s.msg.wf
  /-- Only offsets below `MSG_CAP` exist. -/
  msg_inside : ∀ c ∈ s.msg, c.1 < s.cfg.msgCap
  /-- R28: 0 after reset, then `PLEN = 136 * (MLEN div 136 + 1)`, at most `MSG_CAP`. -/
  lengths : (s.mlen = 0 ∧ s.plen = 0) ∨
    (s.plen.toNat = 136 * (s.mlen.toNat / 136 + 1) ∧ s.plen.toNat ≤ s.cfg.msgCap)
  /-- The error that `ERR` reports has its sticky bit set. -/
  err_sticky : ∀ e, s.status.err = some e → s.status.sticky.has e = true
  /-- With no error since the last clear, `ERRINFO` is 0. -/
  errinfo_clear : s.status.sticky = Sticky.clear → s.errinfo = 0

/-- `STATUS[7:4] = 0`: no command failed since the last reset or `CLRERR` (60_exceptions.md R174). -/
def State.cleanRecord (s : State) : Bool := decide (s.status.sticky = Sticky.clear)

/-- The error in which the command word `w` ends on an engine with the given parameter, if it does: the conditions of
60_exceptions.md R165 in the order of R171. -/
def commandError (c : Config) (w : Word) : Option CmdError :=
  match decode w with
  | .illegal _ => some .illegalCommand
  | .command .init => none
  | .command .permute => none
  | .command (.pad len) => if c.msgCap ≤ len then some .lengthOutOfRange else none
  | .command (.absorb k n) =>
    if n ≠ 136 then some .invalidBlockSize else if c.maxBlocks ≤ k then some .blockOutOfRange else none
  | .command .squeeze => none
  | .command (.hash len) => if c.msgCap ≤ len then some .lengthOutOfRange else none
  | .command .clrerr => none

end Sys2Proof.Machine
end

