-- ==== Sys2Proof/Certificates/Slice0/Obligations.lean ====
section
/-! DEFINITION. The statements for the provers, from the numbered rules of spec/. First the few notions that only the
statements use, then the statements: encoding, lane arithmetic, permutation, padding, sponge, hash, errors, host port,
whole machine. -/

namespace Sys2Proof.Claims

open Sys2Proof.Machine

/-- A byte sequence read as a number, the first byte most significant (00_scope.md R11, 43_sponge.md R121). -/
def bigEndian (bs : List Byte) : Nat := bs.foldl (fun acc b => 256 * acc + b.toNat) 0

/-- One turn of the generator of 41_permutation.md R81. -/
def rcStep (R : Nat) : Nat := if (2 * R).testBit 8 then (2 * R) ^^^ 0x171 else 2 * R

/-- `rcbit(t)` of R81. -/
def rcbit (t : Nat) : Bool := (Nat.repeat rcStep (t % 255) 1).testBit 0

/-- The walk of R82 after `t` turns, from `(1, 0)`. -/
def rhoWalk (t : Nat) : Fin 5 × Fin 5 := Nat.repeat (fun p => (p.2, 2 * p.1 + 3 * p.2)) t (1, 0)

/-- Every lane all ones (95_test_vectors.md, `ONES`). -/
def ones : Lanes := Vector.replicate 25 0xFFFFFFFFFFFFFFFF

/-- The code of a command error (60_exceptions.md R165). -/
def errorCode : CmdError → Nat
  | .invalidBlockSize => 1
  | .illegalCommand => 2
  | .lengthOutOfRange => 3
  | .blockOutOfRange => 4

/-- The reads that the map of 20_memory.md R41 permits. -/
def readPermitted (c : Config) (off : BitVec 24) : AccessSize → Prop
  | .eight => ∃ i < 25, off.toNat = 8 * i
  | .four => off.toNat = 0x104 ∨ off.toNat = 0x108 ∨ off.toNat = 0x10C ∨ off.toNat = 0x110
  | .one => (0x120 ≤ off.toNat ∧ off.toNat < 0x140) ∨ (0x1000 ≤ off.toNat ∧ off.toNat < 0x1000 + c.msgCap)

/-- The writes that the map of R41 permits. -/
def writePermitted (c : Config) (off : BitVec 24) : Data → Prop
  | .b8 _ => ∃ i < 25, off.toNat = 8 * i
  | .b4 _ => off.toNat = 0x100
  | .b1 _ => 0x1000 ≤ off.toNat ∧ off.toNat < 0x1000 + c.msgCap

/-- The command that the next step runs, if the event at the head of the port issues one. -/
def nextCommand (s : State) : Option Instr :=
  match s.port with
  | .write off (.b4 w) :: _ =>
    if off.toNat = 0x100 then (match decode w with | .command i => some i | .illegal _ => none) else none
  | _ => none

/-- The next step is a reset. -/
def nextIsReset (s : State) : Prop := ∃ rest, s.port = .reset :: rest

end Sys2Proof.Claims

open Sys2Proof Sys2Proof.Machine Sys2Proof.Claims

/-! ### Encoding -/

/-- 30_encoding.md section 2: decoding an encoded well-formed command gives it back, and a word that decodes to a command
is the encoding of that command, which is well formed. -/
def Obligations.DecodeAndEncodeAgree : Prop :=
  (∀ i : Instr, i.wf = true → decode (encode i) = .command i) ∧
  (∀ (w : Word) (i : Instr), decode w = .command i → i.wf = true ∧ encode i = w)

/-- R66: the decoder and the encoder, with the fields as quotients and remainders of the word's number. -/
def Obligations.DecodeAndEncodeFollowTheirRule : Prop :=
  (∀ w : Word, decode w =
    if w.toNat / 2 ^ 24 = 0x01 ∧ w.toNat % 2 ^ 24 = 0 then .command .init
    else if w.toNat / 2 ^ 24 = 0x02 ∧ w.toNat % 2 ^ 24 = 0 then .command .permute
    else if w.toNat / 2 ^ 24 = 0x03 then .command (.pad (w.toNat % 2 ^ 24))
    else if w.toNat / 2 ^ 24 = 0x04 then .command (.absorb (w.toNat % 2 ^ 16) (w.toNat / 2 ^ 16 % 2 ^ 8))
    else if w.toNat / 2 ^ 24 = 0x05 ∧ w.toNat % 2 ^ 24 = 0 then .command .squeeze
    else if w.toNat / 2 ^ 24 = 0x06 then .command (.hash (w.toNat % 2 ^ 24))
    else if w.toNat / 2 ^ 24 = 0x07 ∧ w.toNat % 2 ^ 24 = 0 then .command .clrerr
    else .illegal w) ∧
  encode .init = 0x01000000 ∧ encode .permute = 0x02000000 ∧
  (∀ len < 2 ^ 24, encode (.pad len) = 0x03000000#32 ||| BitVec.ofNat 32 len) ∧
  (∀ k < 65536, ∀ n < 256,
    encode (.absorb k n) = 0x04000000#32 ||| (BitVec.ofNat 32 n <<< 16) ||| BitVec.ofNat 32 k) ∧
  encode .squeeze = 0x05000000 ∧
  (∀ len < 2 ^ 24, encode (.hash len) = 0x06000000#32 ||| BitVec.ofNat 32 len) ∧
  encode .clrerr = 0x07000000 ∧
  (∀ len < 2 ^ 24, ∀ n < 256, ∀ k < 65536,
    ∀ i ∈ [Instr.init, .permute, .pad len, .absorb k n, .squeeze, .hash len, .clrerr], decode (encode i) = .command i)

/-- R63: a word is one of the seven commands exactly when `(w & mask) == match`, for each row of the opcode map. -/
def Obligations.CommandsAreTheWordsOfTheOpcodeMap : Prop :=
  ∀ w : Word,
    (w &&& 0xFFFFFFFF#32 = 0x01000000 ↔ decode w = .command .init) ∧
    (w &&& 0xFFFFFFFF#32 = 0x02000000 ↔ decode w = .command .permute) ∧
    (w &&& 0xFF000000#32 = 0x03000000 ↔ ∃ len, decode w = .command (.pad len)) ∧
    (w &&& 0xFF000000#32 = 0x04000000 ↔ ∃ k n, decode w = .command (.absorb k n)) ∧
    (w &&& 0xFFFFFFFF#32 = 0x05000000 ↔ decode w = .command .squeeze) ∧
    (w &&& 0xFF000000#32 = 0x06000000 ↔ ∃ len, decode w = .command (.hash len)) ∧
    (w &&& 0xFFFFFFFF#32 = 0x07000000 ↔ decode w = .command .clrerr)

/-- R64: the illegal words are exactly the reserved encodings, and executing one raises `IllegalCommand` and changes
nothing else. -/
def Obligations.IllegalWordsAreTheReservedEncodings : Prop :=
  (∀ w v : Word, decode w = .illegal v ↔
    w = v ∧ (w.toNat / 2 ^ 24 = 0 ∨ 0x08 ≤ w.toNat / 2 ^ 24 ∨
      (w.toNat / 2 ^ 24 ∈ [0x01, 0x02, 0x05, 0x07] ∧ w.toNat % 2 ^ 24 ≠ 0))) ∧
  (∀ (s : State) (w : Word), decode w = .illegal w →
    s.issue w = .next { s with
      status := { err := some .illegalCommand, sticky := { s.status.sticky with ill := true } },
      errinfo := w, response := some .ok })

/-- Words written out from the formats of 30_encoding.md section 1 decode to the commands they stand for. -/
def Obligations.WordsWrittenFromTheFormatsDecode : Prop :=
  decode 0b00000001000000000000000000000000 = .command .init ∧
  decode 0b00000010000000000000000000000000 = .command .permute ∧
  decode 0b00000011000000000000000011001000 = .command (.pad 200) ∧
  decode 0b00000100100010000000000000000001 = .command (.absorb 1 136) ∧
  decode 0b00000101000000000000000000000000 = .command .squeeze ∧
  decode 0b00000110000000000000000100101100 = .command (.hash 300) ∧
  decode 0b00000111000000000000000000000000 = .command .clrerr ∧
  decode 0 = .illegal 0 ∧ decode 0xFFFFFFFF = .illegal 0xFFFFFFFF ∧ decode 0x01000001 = .illegal 0x01000001

/-! ### Lane arithmetic -/

/-- R10: rotation left within 64 bits, by its formula on naturals and bit by bit. -/
def Obligations.RotateLeftMovesEachBit : Prop :=
  ∀ v : Lane, rol64 v 0 = v ∧
    (∀ n, 1 ≤ n → n ≤ 63 → (rol64 v n).toNat = ((v.toNat * 2 ^ n) % 2 ^ 64) ||| (v.toNat / 2 ^ (64 - n))) ∧
    (∀ n ≤ 63, ∀ i < 64, (rol64 v n).getLsbD ((i + n) % 64) = v.getLsbD i)

/-- R11: `le64`, `bytes_le` and `bswap64`, and how they undo each other. -/
def Obligations.BytesAndLanesConvertLittleEndian : Prop :=
  (∀ b0 b1 b2 b3 b4 b5 b6 b7 : Byte, (le64 [b0, b1, b2, b3, b4, b5, b6, b7]).toNat =
    b0.toNat + b1.toNat * 2 ^ 8 + b2.toNat * 2 ^ 16 + b3.toNat * 2 ^ 24 + b4.toNat * 2 ^ 32 + b5.toNat * 2 ^ 40 +
      b6.toNat * 2 ^ 48 + b7.toNat * 2 ^ 56) ∧
  (∀ v : Lane, (bytesLe v).length = 8 ∧ (∀ k < 8, (bytesLe v)[k]? = some (v.extractLsb' (8 * k) 8)) ∧
    le64 (bytesLe v) = v ∧
    (∀ k < 8, (bswap64 v).extractLsb' (8 * k) 8 = v.extractLsb' (8 * (7 - k)) 8) ∧
    bigEndian (bytesLe v) = (bswap64 v).toNat)

/-! ### Permutation -/

/-- 41_permutation.md section 1: the round constants are those of the generator. -/
def Obligations.RoundConstantsComeFromTheGenerator : Prop :=
  ∀ (r : Fin 24) (i : Fin 64), (RC r).getLsbD i.val =
    (List.range 7).any fun j => i.val == 2 ^ j - 1 && rcbit (j + 7 * r.val)

/-- 41_permutation.md section 1: the rotation amounts are those of the walk. -/
def Obligations.RotationAmountsComeFromTheWalk : Prop :=
  RHO 0 = 0 ∧ ∀ t : Fin 24,
    (RHO (laneIndex (rhoWalk t.val).1 (rhoWalk t.val).2)).val = ((t.val + 1) * (t.val + 2) / 2) % 64

/-- 41_permutation.md section 1: the destinations, their inverse, the one fixed point and the one cycle. -/
def Obligations.DestinationsAreABijectionWithOneFixedPoint : Prop :=
  (∀ x y : Fin 5, PI (laneIndex x y) = laneIndex y (2 * x + 3 * y)) ∧
  (∀ i : Fin 25, PISRC (PI i) = i ∧ PI (PISRC i) = i) ∧
  (∀ i : Fin 25, PI i = i ↔ i = 0) ∧
  (∀ i : Fin 25, i ≠ 0 → ∀ j : Fin 25, j ≠ 0 → ∃ n < 24, Nat.repeat PI n i = j)

/-- R85: theta, with the lanes by their index, and its fixed points. -/
def Obligations.ThetaFollowsItsRule : Prop :=
  (∀ (S : Lanes) (C D : Fin 5 → Lane),
    (∀ x : Fin 5, C x = S[x.val] ^^^ S[x.val + 5] ^^^ S[x.val + 10] ^^^ S[x.val + 15] ^^^ S[x.val + 20]) →
    (∀ x y z : Fin 5, y.val = (x.val + 4) % 5 → z.val = (x.val + 1) % 5 → D x = C y ^^^ rol64 (C z) 1) →
    ∀ (i : Fin 25) (x : Fin 5), x.val = i.val % 5 → (theta S)[i] = S[i] ^^^ D x) ∧
  theta Lanes.zero = Lanes.zero ∧ theta ones = ones

/-- R86: rho rotates each lane in place, lane 0 by 0; the zero and the all-ones states are fixed. -/
def Obligations.RhoFollowsItsRule : Prop :=
  (∀ (S : Lanes) (i : Fin 25), (rho S)[i] = rol64 S[i] (RHO i).val) ∧ (∀ S : Lanes, (rho S)[0] = S[0]) ∧
  rho Lanes.zero = Lanes.zero ∧ rho ones = ones

/-- R87: pi moves every lane to its destination and nothing else; lane 0 stays. -/
def Obligations.PiMovesEveryLaneToItsDestination : Prop :=
  (∀ (S : Lanes) (i : Fin 25), (pi S)[PI i] = S[i]) ∧
  (∀ (S : Lanes) (j : Fin 25), (pi S)[j] = S[PISRC j]) ∧
  (∀ S : Lanes, (pi S)[0] = S[0]) ∧ pi Lanes.zero = Lanes.zero

/-- R88: chi, row by row on the values before it. -/
def Obligations.ChiFollowsItsRule : Prop :=
  (∀ (S : Lanes) (x y u v : Fin 5), u.val = (x.val + 1) % 5 → v.val = (x.val + 2) % 5 →
    (chi S)[x.val + 5 * y.val] = S[x.val + 5 * y.val] ^^^ ((~~~ S[u.val + 5 * y.val]) &&& S[v.val + 5 * y.val])) ∧
  chi Lanes.zero = Lanes.zero ∧ chi ones = ones

/-- R89: iota changes lane 0 only, by the round's constant, and is its own inverse. -/
def Obligations.IotaChangesLaneZeroOnly : Prop :=
  ∀ (S : Lanes) (r : Fin 24),
    (iota S r)[0] = S[0] ^^^ RC r ∧ (∀ i : Fin 25, i ≠ 0 → (iota S r)[i] = S[i]) ∧ iota (iota S r) r = S

/-- R90 and R91: the order of the steps in a round and of the rounds, and the lane 0 that R91 gives for the zero state. -/
def Obligations.PermuteIsTwentyFourRoundsInOrder : Prop :=
  (∀ (S : Lanes) (r : Fin 24), keccakRound S r = iota (chi (pi (rho (theta S)))) r) ∧
  (∀ (S : Lanes) (T : Nat → Lanes), T 0 = S → (∀ r : Fin 24, T (r.val + 1) = keccakRound (T r.val) r) →
    permute S = T 24) ∧
  keccakRound Lanes.zero 0 = Lanes.zero.set 0 1 ∧
  (permute Lanes.zero)[0] = 0xF1258F7940E1DDE7 ∧ permute Lanes.zero ≠ Lanes.zero

/-- R95: `PERMUTE`. -/
def Obligations.PermuteCommandPermutesTheLanes : Prop :=
  encode .permute = 0x02000000 ∧ decode 0x02000001 = .illegal 0x02000001 ∧
  ∀ s : State, exec .permute s = .next { s with lanes := permute s.lanes, status := { s.status with err := none } }

/-! ### Padding -/

/-- 42_padding.md section 1, the length law. -/
def Obligations.PaddedLengthIsTheNextMultiple : Prop :=
  ∀ M : List Byte, (padMessage M).length = 136 * (M.length / 136 + 1) ∧
    136 ∣ (padMessage M).length ∧ M.length < (padMessage M).length ∧
    (padMessage M).length = M.length + (136 - M.length % 136)

/-- R100: the message, then zero bytes, with 0x01 OR-ed into the first and 0x80 into the last byte of the padding. -/
def Obligations.PaddingFollowsItsRule : Prop :=
  ∀ M : List Byte, ∃ rem, rem = 136 - M.length % 136 ∧ 1 ≤ rem ∧ rem ≤ 136 ∧
    (padMessage M).length = M.length + rem ∧
    (∀ i < M.length, (padMessage M)[i]? = M[i]?) ∧
    (∀ i, M.length ≤ i → i < M.length + rem → (padMessage M)[i]? = some
      ((if i = M.length then 0x01#8 else 0x00#8) ||| (if i = M.length + rem - 1 then 0x80#8 else 0x00#8)))

/-- R103: with one padding byte the two OR operations meet in it and give 0x81; the order of the two never matters. -/
def Obligations.PaddingMarksCommute : Prop :=
  (∀ M : List Byte, M.length % 136 = 135 → padMessage M = M ++ [0x81]) ∧
  (∀ M : List Byte, padMessage M =
    ((M ++ zeros (136 - M.length % 136)).modify (M.length + (136 - M.length % 136) - 1) (· ||| 0x80#8)).modify
      M.length (· ||| 0x01#8))

/-- 42_padding.md section 1, the chunking law. -/
def Obligations.OnlyTheLastBlockIsPadded : Prop :=
  ∀ (M : List Byte) (q t : Nat), M.length = 136 * q + t → t < 136 →
    padMessage M = M.take (136 * q) ++ padMessage (M.drop (136 * q)) ∧ (padMessage (M.drop (136 * q))).length = 136

/-- R107: `PAD len`. It stores to `MSG[len .. plen)` and to nothing else. -/
def Obligations.PadCommandPadsTheBuffer : Prop :=
  ∀ (s : State) (len : Nat),
    (len < 2 ^ 24 → encode (.pad len) = 0x03000000#32 ||| BitVec.ofNat 32 len) ∧
    (s.cfg.msgCap ≤ len → exec (.pad len) s = .next { s with
      status := { err := some .lengthOutOfRange, sticky := { s.status.sticky with len := true } },
      errinfo := encode (.pad len) }) ∧
    (len < s.cfg.msgCap → ∃ t, exec (.pad len) s = .next t ∧
      t.memRead 0 (paddedLength len) = padMessage (s.memRead 0 len) ∧
      (∀ a, a < len ∨ paddedLength len ≤ a → t.msgByte a = s.msgByte a) ∧
      paddedLength len = 136 * (len / 136 + 1) ∧ paddedLength len ≤ s.cfg.msgCap ∧
      t.mlen.toNat = len ∧ t.plen.toNat = paddedLength len ∧
      t = { s with msg := t.msg, mlen := t.mlen, plen := t.plen, status := { s.status with err := none } })

/-- R104: the padding bytes are a function of the length alone: not of the message, not of what the buffer held. -/
def Obligations.PaddingDependsOnTheLengthAlone : Prop :=
  (∀ M N : List Byte, M.length = N.length → (padMessage M).drop M.length = (padMessage N).drop N.length) ∧
  (∀ (s s' t t' : State) (len : Nat), len < s.cfg.msgCap → len < s'.cfg.msgCap →
    exec (.pad len) s = .next t → exec (.pad len) s' = .next t' →
    ∀ a, len ≤ a → a < paddedLength len → t.msgByte a = t'.msgByte a)

/-- 42_padding.md section 2: running `PAD len` twice in a row leaves what running it once leaves. -/
def Obligations.PadTwiceIsPadOnce : Prop :=
  ∀ (s t : State) (len : Nat), s.Inv → exec (.pad len) s = .next t → exec (.pad len) t = .next t

/-! ### Sponge -/

/-- R116: `absorbBlock`, byte by byte: block byte `8i + k` meets bits `8k+7 : 8k` of lane `i`. -/
def Obligations.AbsorbBlockFollowsItsRule : Prop :=
  ∀ (S : Lanes) (blk : List Byte),
    (blk.length ≠ 136 → absorbBlock S blk = .error .invalidBlockSize) ∧
    (blk.length = 136 → ∃ T, absorbBlock S blk = .ok T ∧
      (∀ i : Fin 25, i.val < 17 → T[i] = S[i] ^^^ le64 ((blk.drop (8 * i.val)).take 8)) ∧
      (∀ i : Fin 25, 17 ≤ i.val → T[i] = S[i]) ∧
      (∀ i : Fin 25, i.val < 17 → ∀ k < 8, ∀ b, blk[8 * i.val + k]? = some b →
        T[i].extractLsb' (8 * k) 8 = S[i].extractLsb' (8 * k) 8 ^^^ b))

/-- R117: the capacity is untouched; absorbing twice undoes itself; a block of zeros changes nothing. -/
def Obligations.AbsorbIsAnXorOfTheRate : Prop :=
  ∀ (S T : Lanes) (blk : List Byte), absorbBlock S blk = .ok T →
    (∀ i : Fin 25, 17 ≤ i.val → i.val ≤ 24 → T[i] = S[i]) ∧ absorbBlock T blk = .ok S ∧
    absorbBlock S (List.replicate 136 0) = .ok S

/-- R118: two absorbs with no permutation between them absorb the bytewise XOR of the blocks. -/
def Obligations.TwoAbsorbsAbsorbTheXor : Prop :=
  ∀ (S T U : Lanes) (b1 b2 : List Byte), absorbBlock S b1 = .ok T → absorbBlock T b2 = .ok U →
    absorbBlock S (List.zipWith (· ^^^ ·) b1 b2) = .ok U

/-- R120: `squeeze` reads lanes 0..3 only, the least significant byte of each first. -/
def Obligations.SqueezeReadsFourLanesLowByteFirst : Prop :=
  (∀ S : Lanes, (squeeze S).toList = bytesLe S[0] ++ bytesLe S[1] ++ bytesLe S[2] ++ bytesLe S[3]) ∧
  (∀ (S : Lanes) (j : Fin 4) (k : Fin 8), (squeeze S)[8 * j.val + k.val] = S[j.val].extractLsb' (8 * k.val) 8) ∧
  (∀ S T : Lanes, (∀ j : Fin 4, S[j.val] = T[j.val]) → squeeze S = squeeze T)

/-- R121: squeezing undoes absorbing, and the digest as a big-endian number is the four byte-swapped lanes. -/
def Obligations.SqueezeUndoesAbsorb : Prop :=
  (∀ (blk : List Byte) (T : Lanes), absorbBlock Lanes.zero blk = .ok T → (squeeze T).toList = blk.take 32) ∧
  (∀ S : Lanes, bigEndian (squeeze S).toList =
    (bswap64 S[0]).toNat * 2 ^ 192 + (bswap64 S[1]).toNat * 2 ^ 128 + (bswap64 S[2]).toNat * 2 ^ 64 +
      (bswap64 S[3]).toNat)

/-- R122: `INIT`. -/
def Obligations.InitCommandZeroesTheLanes : Prop :=
  encode .init = 0x01000000 ∧ decode 0x01000001 = .illegal 0x01000001 ∧ (∀ i : Fin 25, Lanes.zero[i] = 0) ∧
  ∀ s : State, exec .init s = .next { s with lanes := Lanes.zero, status := { s.status with err := none } }

/-- R123: `ABSORB k, n`, the two errors in their order and the success. It stores to no byte of the buffer. -/
def Obligations.AbsorbCommandXorsOneSlot : Prop :=
  ∀ (s : State) (k n : Nat),
    (k < 65536 → n < 256 →
      encode (.absorb k n) = 0x04000000#32 ||| (BitVec.ofNat 32 n <<< 16) ||| BitVec.ofNat 32 k) ∧
    (n ≠ 136 → exec (.absorb k n) s = .next { s with
      status := { err := some .invalidBlockSize, sticky := { s.status.sticky with ibs := true } },
      errinfo := encode (.absorb k n) }) ∧
    (n = 136 → s.cfg.maxBlocks ≤ k → exec (.absorb k n) s = .next { s with
      status := { err := some .blockOutOfRange, sticky := { s.status.sticky with blk := true } },
      errinfo := encode (.absorb k n) }) ∧
    (n = 136 → k < s.cfg.maxBlocks → ∃ T, absorbBlock s.lanes (s.memRead (136 * k) 136) = .ok T ∧
      (∀ i : Fin 25, T[i] =
        if i.val < 17 then s.lanes[i] ^^^ le64 (s.memRead (136 * k + 8 * i.val) 8) else s.lanes[i]) ∧
      exec (.absorb k n) s = .next { s with lanes := T, status := { s.status with err := none } })

/-- R124: `SQUEEZE`: the digest from the lanes as they are, then the lanes to zero. -/
def Obligations.SqueezeCommandTakesTheDigest : Prop :=
  encode .squeeze = 0x05000000 ∧
  ∀ s : State, exec .squeeze s = .next { s with
      digest := squeeze s.lanes, lanes := Lanes.zero, status := { s.status with err := none } } ∧
    (∀ (j : Fin 4) (k : Fin 8), (squeeze s.lanes)[8 * j.val + k.val] = s.lanes[j.val].extractLsb' (8 * k.val) 8)

/-! ### Hash -/

/-- R135: `hash` is the source's four steps; no `absorbBlock` of it fails. -/
def Obligations.HashIsPadAbsorbPermuteSqueeze : Prop :=
  ∀ M : List Byte, (padMessage M).length = 136 * (M.length / 136 + 1) ∧
    ∃ S : Nat → Lanes, S 0 = Lanes.zero ∧
      (∀ b < M.length / 136 + 1, ∃ T,
        absorbBlock (S b) (((padMessage M).drop (136 * b)).take 136) = .ok T ∧ S (b + 1) = permute T) ∧
      hashMessage M = squeeze (S (M.length / 136 + 1))

/-- R137: `HASH len` leaves the hash of the message in `DIGEST`, the padded message in the buffer, zero lanes; it stores to
`MSG[len .. plen)` and to nothing else; a length that does not fit changes nothing but the error record. -/
def Obligations.HashCommandComputesTheHash : Prop :=
  ∀ (s : State) (len : Nat),
    (len < 2 ^ 24 → encode (.hash len) = 0x06000000#32 ||| BitVec.ofNat 32 len) ∧
    (s.cfg.msgCap ≤ len → exec (.hash len) s = .next { s with
      status := { err := some .lengthOutOfRange, sticky := { s.status.sticky with len := true } },
      errinfo := encode (.hash len) }) ∧
    (len < s.cfg.msgCap → ∃ t, exec (.hash len) s = .next t ∧
      t.digest = hashMessage (s.memRead 0 len) ∧
      t.memRead 0 (paddedLength len) = padMessage (s.memRead 0 len) ∧
      (∀ a, a < len ∨ paddedLength len ≤ a → t.msgByte a = s.msgByte a) ∧
      paddedLength len = 136 * (len / 136 + 1) ∧ paddedLength len ≤ s.cfg.msgCap ∧
      t.mlen.toNat = len ∧ t.plen.toNat = paddedLength len ∧
      t = { s with lanes := Lanes.zero, msg := t.msg, mlen := t.mlen, plen := t.plen, digest := t.digest,
                   status := { s.status with err := none } })

/-- 44_hash_pipeline.md section 2: `HASH len` leaves the same state as the primitive commands; a length that does not fit
makes `HASH` fail once, and the script's `PAD` fail and the rest of it still run. -/
def Obligations.HashEqualsThePrimitiveCommands : Prop :=
  ∀ (s : State) (len : Nat),
    (len < s.cfg.msgCap → execAll (keccak256 len) s = exec (.hash len) s) ∧
    (s.cfg.msgCap ≤ len → ∃ u, exec (.pad len) s = .next u ∧ u.status.err = some .lengthOutOfRange ∧
      execAll (keccak256 len) s = execAll (keccak256Tail len) u)

/-- 44_hash_pipeline.md section 3: absorbing the full blocks as they come and padding the tail once gives the hash of the
whole message. -/
def Obligations.HashInPiecesIsTheHash : Prop :=
  ∀ (blocks : List (List Byte)) (tail : List Byte), (∀ b ∈ blocks, b.length = 136) → tail.length < 136 →
    hashMessage (blocks.flatten ++ tail) =
      squeeze (absorbPermute (blocks.foldl absorbPermute Lanes.zero) (padMessage tail))

/-- 44_hash_pipeline.md section 2: what `HASH` leaves in the lanes, the digest, the length registers and the padded bytes
depends on the message bytes alone, not on the old lanes nor on any other byte or register. -/
def Obligations.HashDependsOnTheMessageAlone : Prop :=
  ∀ (s s' t t' : State) (len : Nat), len < s.cfg.msgCap → len < s'.cfg.msgCap →
    (∀ a < len, s.msgByte a = s'.msgByte a) →
    exec (.hash len) s = .next t → exec (.hash len) s' = .next t' →
    t.digest = t'.digest ∧ t.lanes = t'.lanes ∧ t.mlen = t'.mlen ∧ t.plen = t'.plen ∧
      ∀ a < paddedLength len, t.msgByte a = t'.msgByte a

/-! ### Errors -/

/-- R150: `CLRERR`. -/
def Obligations.ClrerrClearsTheErrorRecord : Prop :=
  encode .clrerr = 0x07000000 ∧ decode 0x07000001 = .illegal 0x07000001 ∧
  ∀ s : State, ∃ t, exec .clrerr s = .next t ∧ t.readReg .status = 0 ∧ t.readReg .errinfo = 0 ∧
    t = { s with status := { err := none, sticky := { ibs := false, ill := false, len := false, blk := false } },
                 errinfo := 0 }

/-- 10_state.md section 4: the bits of `STATUS` as the host reads them. -/
def Obligations.StatusBitsAreWhereTheRegisterMapPutsThem : Prop :=
  ∀ s : State,
    (s.readReg .status).extractLsb' 8 24 = 0 ∧ (s.readReg .status).getLsbD 3 = false ∧
    (s.status.err = none → (s.readReg .status).extractLsb' 0 3 = 0) ∧
    (∀ e, s.status.err = some e → ((s.readReg .status).extractLsb' 0 3).toNat = errorCode e) ∧
    (∀ e, (s.readReg .status).getLsbD (4 + (errorCode e - 1)) = s.status.sticky.has e) ∧
    (s.readReg .mlen).extractLsb' 24 8 = 0 ∧ (s.readReg .mlen).extractLsb' 0 24 = s.mlen ∧
    (s.readReg .plen).extractLsb' 24 8 = 0 ∧ (s.readReg .plen).extractLsb' 0 24 = s.plen

/-- R172: every command ends in exactly one of two ways, told apart by the conditions of R165 in the order of R171. -/
def Obligations.EveryCommandEndsInOneOfTwoWays : Prop :=
  ∀ (s : State) (w : Word), ∃ t, s.issue w = .next t ∧ t.response = some .ok ∧
    (commandError s.cfg w = none →
      (t.readReg .status).extractLsb' 0 3 = 0 ∧
      (decode w ≠ .command .clrerr →
        t.readReg .status = s.readReg .status &&& 0xF0#32 ∧ t.readReg .errinfo = s.readReg .errinfo)) ∧
    (∀ e, commandError s.cfg w = some e →
      t.readReg .status =
        (s.readReg .status &&& 0xF0#32) ||| BitVec.ofNat 32 (errorCode e) ||| (1#32 <<< (4 + errorCode e - 1)) ∧
      t.readReg .errinfo = w ∧ t = { s with status := t.status, errinfo := w, response := some .ok })

/-- The lists "Reads" of R95, R107, R122, R123, R124, R137 and R150, and 10_state.md section 4: no command reads `STATUS`,
`ERRINFO`, `DIGEST`, or the old `MLEN` and `PLEN`. Whatever those hold, a command writes the same lanes, the same buffer and
the same `ERR`, and into each of those registers, and each sticky bit, either one value that does not depend on them or
nothing at all; and it touches nothing else. -/
def Obligations.NoCommandReadsTheRecords : Prop :=
  ∀ (i : Instr) (s : State), ∃ (l : Lanes) (mem : Memory) (err : Option CmdError) (bit : CmdError → Option Bool)
      (info : Option Word) (dig : Option Digest) (ml pl : Option (BitVec 24)),
    ∀ (st : Status) (e : Word) (d : Digest) (m p : BitVec 24), ∃ k : Sticky,
      exec i { s with status := st, errinfo := e, digest := d, mlen := m, plen := p } = .next { s with
        lanes := l, msg := mem, status := { err := err, sticky := k }, errinfo := info.getD e, digest := dig.getD d,
        mlen := ml.getD m, plen := pl.getD p } ∧
      ∀ c, k.has c = (bit c).getD (st.sticky.has c)

/-- 45_system_host.md section 1: a sticky bit that falls was cleared by `CLRERR` or by reset. -/
def Obligations.StickyBitsFallOnlyByClrerrOrReset : Prop :=
  ∀ (s t : State) (e : CmdError), step s = .next t → s.status.sticky.has e = true → t.status.sticky.has e = false →
    nextIsReset s ∨ nextCommand s = some .clrerr

/-! ### Host port. The port as a queue in the state, and the response as a field of it, are the model's (log entry 4). -/

/-- R157: command issue, at the level of a step. -/
def Obligations.StepRunsTheDecodedCommand : Prop :=
  ∀ (s : State) (rest : List HostEvent) (w : Word),
    (∀ i, decode w = .command i → ∃ u, exec i { s with port := rest } = .next u ∧
      step { s with port := .write 0x000100 (.b4 w) :: rest } = .next { u with response := some .ok }) ∧
    (∀ v, decode w = .illegal v → step { s with port := .write 0x000100 (.b4 w) :: rest } = .next { s with
      port := rest, status := { err := some .illegalCommand, sticky := { s.status.sticky with ill := true } },
      errinfo := w, response := some .ok }) ∧
    (∀ v : Byte, step { s with port := .write 0x000100 (.b1 v) :: rest } =
      .next { s with port := rest, response := some .busError }) ∧
    (∀ v : Lane, step { s with port := .write 0x000100 (.b8 v) :: rest } =
      .next { s with port := rest, response := some .busError })

/-- The host's fetch word (log entry 12, the model's own): the next step decodes it and runs what it decodes to. -/
def Obligations.FetchWordRunsNext : Prop :=
  ∀ (s : State) (nbits w : Nat) (i : Instr), decodeTableWord nbits w = some i →
    ∃ u, exec i s = .next u ∧ step (s.withFetchWord nbits w) = .next { u with response := some .ok }

/-- R151: `WRB a, v`. It stores to `MSG[a]` and to nothing else. -/
def Obligations.WriteByteStoresOneByte : Prop :=
  ∀ (s : State) (rest : List HostEvent) (a : Nat),
    (a < s.cfg.msgCap → ∀ v : Byte, ∃ t,
      step { s with port := .write (BitVec.ofNat 24 (0x001000 + a)) (.b1 v) :: rest } = .next t ∧
      t.msgByte a = v ∧ (∀ b, b ≠ a → t.msgByte b = s.msgByte b) ∧
      t = { s with port := rest, response := some .ok, msg := t.msg }) ∧
    (s.cfg.msgCap ≤ a → 0x001000 + a < 2 ^ 24 → ∀ v : Data,
      step { s with port := .write (BitVec.ofNat 24 (0x001000 + a)) v :: rest } =
        .next { s with port := rest, response := some .busError }) ∧
    (a < s.cfg.msgCap → ∀ v : Data, (∀ b, v ≠ .b1 b) →
      step { s with port := .write (BitVec.ofNat 24 (0x001000 + a)) v :: rest } =
        .next { s with port := rest, response := some .busError })

/-- R152: `RDB a`. -/
def Obligations.ReadByteReturnsTheByte : Prop :=
  ∀ (s : State) (rest : List HostEvent) (a : Nat),
    (a < s.cfg.msgCap → step { s with port := .read (BitVec.ofNat 24 (0x001000 + a)) .one :: rest } =
      .next { s with port := rest, response := some (.data (.b1 (s.msgByte a))) }) ∧
    (s.cfg.msgCap ≤ a → 0x001000 + a < 2 ^ 24 → ∀ size,
      step { s with port := .read (BitVec.ofNat 24 (0x001000 + a)) size :: rest } =
        .next { s with port := rest, response := some .busError }) ∧
    (a < s.cfg.msgCap → ∀ size, size ≠ .one →
      step { s with port := .read (BitVec.ofNat 24 (0x001000 + a)) size :: rest } =
        .next { s with port := rest, response := some .busError })

/-- R153: `WRL i, v`. -/
def Obligations.WriteLaneStoresOneLane : Prop :=
  (∀ (s : State) (rest : List HostEvent) (i : Fin 25) (v : Lane), ∃ t,
    step { s with port := .write (BitVec.ofNat 24 (8 * i.val)) (.b8 v) :: rest } = .next t ∧
    t.lanes[i] = v ∧ (∀ j : Fin 25, j ≠ i → t.lanes[j] = s.lanes[j]) ∧
    t = { s with port := rest, response := some .ok, lanes := t.lanes }) ∧
  (∀ (s : State) (rest : List HostEvent) (off : BitVec 24) (v : Lane), ¬ (off.toNat % 8 = 0 ∧ off.toNat ≤ 0x0000C0) →
    step { s with port := .write off (.b8 v) :: rest } = .next { s with port := rest, response := some .busError }) ∧
  (∀ (s : State) (rest : List HostEvent) (i : Fin 25) (v : Data), (∀ u, v ≠ .b8 u) →
    step { s with port := .write (BitVec.ofNat 24 (8 * i.val)) v :: rest } =
      .next { s with port := rest, response := some .busError })

/-- R154: `RDL i`. -/
def Obligations.ReadLaneReturnsTheLane : Prop :=
  (∀ (s : State) (rest : List HostEvent) (i : Fin 25),
    step { s with port := .read (BitVec.ofNat 24 (8 * i.val)) .eight :: rest } =
      .next { s with port := rest, response := some (.data (.b8 s.lanes[i])) }) ∧
  (∀ (s : State) (rest : List HostEvent) (off : BitVec 24), ¬ (off.toNat % 8 = 0 ∧ off.toNat ≤ 0x0000C0) →
    step { s with port := .read off .eight :: rest } = .next { s with port := rest, response := some .busError }) ∧
  (∀ (s : State) (rest : List HostEvent) (i : Fin 25) (size : AccessSize), size ≠ .eight →
    step { s with port := .read (BitVec.ofNat 24 (8 * i.val)) size :: rest } =
      .next { s with port := rest, response := some .busError })

/-- R155: `RDD b`. -/
def Obligations.ReadDigestReturnsTheByte : Prop :=
  ∀ (s : State) (rest : List HostEvent) (b : Fin 32),
    step { s with port := .read (BitVec.ofNat 24 (0x000120 + b.val)) .one :: rest } =
      .next { s with port := rest, response := some (.data (.b1 s.digest[b])) } ∧
    (∀ size, size ≠ .one → step { s with port := .read (BitVec.ofNat 24 (0x000120 + b.val)) size :: rest } =
      .next { s with port := rest, response := some .busError }) ∧
    (∀ v : Data, step { s with port := .write (BitVec.ofNat 24 (0x000120 + b.val)) v :: rest } =
      .next { s with port := rest, response := some .busError })

/-- R156: `RDR reg`. -/
def Obligations.ReadRegisterReturnsItsValue : Prop :=
  ∀ (s : State) (rest : List HostEvent),
    ∀ p ∈ [((0x000104 : BitVec 24), CtlReg.status), (0x000108, .mlen), (0x00010C, .plen), (0x000110, .errinfo)],
      step { s with port := .read p.1 .four :: rest } =
        .next { s with port := rest, response := some (.data (.b4 (s.readReg p.2))) } ∧
      (∀ size, size ≠ .four → step { s with port := .read p.1 size :: rest } =
        .next { s with port := rest, response := some .busError }) ∧
      (∀ v : Data, step { s with port := .write p.1 v :: rest } =
        .next { s with port := rest, response := some .busError })

/-- R170: a transaction that the address map does not permit is answered `BusError` and changes nothing; one that it permits
is not. -/
def Obligations.OnlyPermittedTransactionsAreServed : Prop :=
  ∀ (s : State) (rest : List HostEvent) (off : BitVec 24),
    (∀ size, ¬ readPermitted s.cfg off size →
      step { s with port := .read off size :: rest } = .next { s with port := rest, response := some .busError }) ∧
    (∀ size, readPermitted s.cfg off size → ∃ d,
      step { s with port := .read off size :: rest } = .next { s with port := rest, response := some (.data d) }) ∧
    (∀ v, ¬ writePermitted s.cfg off v →
      step { s with port := .write off v :: rest } = .next { s with port := rest, response := some .busError }) ∧
    (∀ v, writePermitted s.cfg off v → ∃ t,
      step { s with port := .write off v :: rest } = .next t ∧ t.response = some .ok)

/-- 20_memory.md section 2: a read changes nothing and reads the same again; with nothing at the port nothing changes. -/
def Obligations.ReadsAndIdleStepsChangeNothing : Prop :=
  (∀ (s : State) (rest : List HostEvent) (off : BitVec 24) (size : AccessSize), ∃ r,
    step { s with port := .read off size :: .read off size :: rest } =
      .next { s with port := .read off size :: rest, response := some r } ∧
    step { s with port := .read off size :: rest, response := some r } =
      .next { s with port := rest, response := some r }) ∧
  (∀ s : State, s.port = [] → step s = .next s)

/-! ### Reset and the whole machine -/

/-- R35: the state after reset; every buffer byte is a free value, and stays that value until written. The values of
`draw` are the model's own (log entry 3), and the statement is about every one of them; that the events behind a reset
stay at the port (`t.port = rest`) is the model's choice (log entry 5). -/
def Obligations.ResetLeavesTheStateOfTheTable : Prop :=
  (∀ (s : State) (rest : List HostEvent), ∃ t, step { s with port := .reset :: rest } = .next t ∧
    (∀ i : Fin 25, t.lanes[i] = 0) ∧ (∀ a, t.msgByte a = Config.msgDraw t.draw a) ∧
    t.readReg .mlen = 0 ∧ t.readReg .plen = 0 ∧ (∀ b : Fin 32, t.digest[b] = 0) ∧ t.readReg .status = 0 ∧
    t.readReg .errinfo = 0 ∧ t.cfg = s.cfg ∧ t.port = rest) ∧
  (∀ i : Fin 25, State.reset.lanes[i] = 0) ∧ (∀ a, State.reset.msgByte a = Config.msgDraw State.reset.draw a) ∧
  State.reset.readReg .mlen = 0 ∧ State.reset.readReg .plen = 0 ∧ (∀ b : Fin 32, State.reset.digest[b] = 0) ∧
  State.reset.readReg .status = 0 ∧ State.reset.readReg .errinfo = 0 ∧
  (∀ (s : State) (a : Nat), s.msg.get? a = none → s.msgByte a = Config.msgDraw s.draw a)

/-- The invariant holds after reset. -/
def Obligations.InvariantHoldsAfterReset : Prop := State.reset.Inv

/-- Every step keeps the invariant: the buffer's canonical form and bounds, what 10_state.md section 4 says of `MLEN` and
`PLEN`, and the agreement of the error record with itself. -/
def Obligations.StepKeepsTheInvariant : Prop :=
  ∀ s t : State, s.Inv → step s = .next t → t.Inv

/-- 60_exceptions.md section 7 and 70_reset_and_hazards.md section 3: nothing is stuck, every step completes. The other two
clauses are the model's choices: that the host's events are a queue, of which a step serves the oldest and holds the others
(`t.port = s.port.tail`), is log entry 4; that the parameter is a field of the state no step changes (`t.cfg = s.cfg`) is log
entry 1; and that a reset too keeps the events behind it and the parameter is log entry 5. -/
def Obligations.EveryStepCompletes : Prop :=
  ∀ s : State, ∃ t, step s = .next t ∧ t.port = s.port.tail ∧ t.cfg = s.cfg

/-- 10_state.md section 1: the lanes and the digest change only by what the table names as writing them. -/
def Obligations.LanesAndDigestChangeOnlyByTheirWriters : Prop :=
  ∀ s t : State, step s = .next t →
    (t.lanes ≠ s.lanes → nextIsReset s ∨
      (∃ (i : Fin 25) (v : Lane) (rest : List HostEvent), s.port = .write (BitVec.ofNat 24 (8 * i.val)) (.b8 v) :: rest) ∨
      ∃ i, nextCommand s = some i ∧
        (i = .init ∨ i = .permute ∨ (∃ k, i = .absorb k 136) ∨ i = .squeeze ∨ ∃ len, i = .hash len)) ∧
    (t.digest ≠ s.digest → nextIsReset s ∨ ∃ i, nextCommand s = some i ∧ (i = .squeeze ∨ ∃ len, i = .hash len)) ∧
    (∀ i : Fin 25, 17 ≤ i.val → t.lanes[i] ≠ s.lanes[i] → ∀ k n, nextCommand s ≠ some (.absorb k n))

/-- 10_state.md section 9 and 20_memory.md section 2: a buffer byte changes only by a host write to it, or by a `PAD` or
`HASH` whose padding covers it, or by reset. -/
def Obligations.BufferBytesChangeOnlyByTheirWriters : Prop :=
  ∀ (s t : State) (a : Nat), step s = .next t → t.msgByte a ≠ s.msgByte a →
    nextIsReset s ∨
    (a < s.cfg.msgCap ∧ ∃ (v : Byte) (rest : List HostEvent),
      s.port = .write (BitVec.ofNat 24 (0x001000 + a)) (.b1 v) :: rest) ∨
    ∃ len, (nextCommand s = some (.pad len) ∨ nextCommand s = some (.hash len)) ∧
      len < s.cfg.msgCap ∧ len ≤ a ∧ a < paddedLength len

/-- 10_state.md section 1: the length registers change only by `PAD`, `HASH` or reset; `ERRINFO` only by a command that
fails, which leaves its own word there, by `CLRERR` or by reset. -/
def Obligations.RegistersChangeOnlyByTheirWriters : Prop :=
  ∀ s t : State, step s = .next t →
    (t.mlen ≠ s.mlen ∨ t.plen ≠ s.plen → nextIsReset s ∨
      ∃ len, len < s.cfg.msgCap ∧ (nextCommand s = some (.pad len) ∨ nextCommand s = some (.hash len))) ∧
    (t.errinfo ≠ s.errinfo → nextIsReset s ∨ nextCommand s = some .clrerr ∨
      ∃ (w : Word) (rest : List HostEvent), s.port = .write 0x000100 (.b4 w) :: rest ∧
        commandError s.cfg w ≠ none ∧ t.errinfo = w)
end

