-- ==== Sys2Proof/Laws/Encoding.lean ====
section
/-! SUPPORT. The fields of a command word, and the words of the three formats, as numbers (30_encoding.md R61, R62). -/

namespace Sys2Proof

theorem opField_toNat (w : Word) : (opField w).toNat = w.toNat / 2 ^ 24 := by
  simp only [opField, BitVec.extractLsb'_toNat, Nat.shiftRight_eq_div_pow]
  omega

theorem lenField_toNat (w : Word) : (lenField w).toNat = w.toNat % 2 ^ 24 := by
  simp [lenField, BitVec.extractLsb'_toNat]

theorem nField_toNat (w : Word) : (nField w).toNat = w.toNat / 2 ^ 16 % 2 ^ 8 := by
  simp [nField, BitVec.extractLsb'_toNat, Nat.shiftRight_eq_div_pow]

theorem kField_toNat (w : Word) : (kField w).toNat = w.toNat % 2 ^ 16 := by
  simp [kField, BitVec.extractLsb'_toNat]

/-- Two fields side by side, as a number. -/
theorem append_toNat {m n : Nat} (x : BitVec m) (y : BitVec n) : (x ++ y).toNat = x.toNat * 2 ^ n + y.toNat := by
  rw [BitVec.toNat_append, ← Nat.shiftLeft_add_eq_or_of_lt y.isLt, Nat.shiftLeft_eq]

theorem wordZ_toNat (op : BitVec 8) : (wordZ op).toNat = op.toNat * 2 ^ 24 := by
  unfold wordZ
  rw [append_toNat]
  simp

theorem wordL_toNat (op : BitVec 8) (len : Nat) : (wordL op len).toNat = op.toNat * 2 ^ 24 + len % 2 ^ 24 := by
  unfold wordL
  rw [append_toNat, BitVec.toNat_ofNat]

theorem wordB_toNat (op : BitVec 8) (n k : Nat) :
    (wordB op n k).toNat = op.toNat * 2 ^ 24 + n % 2 ^ 8 * 2 ^ 16 + k % 2 ^ 16 := by
  unfold wordB
  have h : (op ++ BitVec.ofNat 8 n ++ BitVec.ofNat 16 k : BitVec 32).toNat =
      (op.toNat * 2 ^ 8 + n % 2 ^ 8) * 2 ^ 16 + k % 2 ^ 16 := by
    rw [append_toNat, append_toNat, BitVec.toNat_ofNat, BitVec.toNat_ofNat]
  rw [h]
  omega

/-- The opcode of a command's word is the opcode of its row, and the operand field holds its operand. -/
theorem wordZ_fields (op : BitVec 8) : opField (wordZ op) = op ∧ lenField (wordZ op) = 0 := by
  constructor <;> apply BitVec.eq_of_toNat_eq
  · rw [opField_toNat, wordZ_toNat]; omega
  · rw [lenField_toNat, wordZ_toNat]; simp

theorem wordL_fields (op : BitVec 8) (len : Nat) :
    opField (wordL op len) = op ∧ (lenField (wordL op len)).toNat = len % 2 ^ 24 := by
  constructor
  · apply BitVec.eq_of_toNat_eq
    rw [opField_toNat, wordL_toNat]; omega
  · rw [lenField_toNat, wordL_toNat]; omega

theorem wordB_fields (op : BitVec 8) (n k : Nat) : opField (wordB op n k) = op ∧
    (nField (wordB op n k)).toNat = n % 2 ^ 8 ∧ (kField (wordB op n k)).toNat = k % 2 ^ 16 := by
  refine ⟨?_, ?_, ?_⟩
  · apply BitVec.eq_of_toNat_eq
    rw [opField_toNat, wordB_toNat]; omega
  · rw [nField_toNat, wordB_toNat]; omega
  · rw [kField_toNat, wordB_toNat]; omega

/-- A field equals a number when its value does. -/
theorem opField_eq_iff (w : Word) (n : Nat) (h : n < 2 ^ 8) :
    opField w = BitVec.ofNat 8 n ↔ w.toNat / 2 ^ 24 = n := by
  rw [← opField_toNat, ← BitVec.toNat_inj, BitVec.toNat_ofNat, Nat.mod_eq_of_lt h]

theorem lenField_eq_zero_iff (w : Word) : lenField w = 0 ↔ w.toNat % 2 ^ 24 = 0 := by
  rw [← lenField_toNat, ← BitVec.toNat_inj]; simp

end Sys2Proof
end

