-- ==== Sys2Proof/Laws/Lanes.lean ====
section
/-! SUPPORT. The functions on lanes and bytes, element by element: one lemma for each, which unfolds it once. -/

namespace Sys2Proof.Machine

/-- Two lane files are equal when every lane is. -/
theorem Lanes.ext {S T : Lanes} (h : ∀ i : Fin 25, S[i] = T[i]) : S = T :=
  Vector.ext fun i hi => h ⟨i, hi⟩

@[simp] theorem Lanes.zero_getElem (i : Fin 25) : Lanes.zero[i] = 0 := by simp [Lanes.zero]

/-! ### Bytes and lanes -/

theorem laneByte_toNat (v : Lane) (k : Nat) : (laneByte v k).toNat = v.toNat / 2 ^ (8 * k) % 2 ^ 8 := by
  simp [laneByte, BitVec.extractLsb'_toNat, Nat.shiftRight_eq_div_pow]

/-- The eight bytes of a lane, written out. -/
theorem bytesLe_eq (v : Lane) : bytesLe v =
    [laneByte v 0, laneByte v 1, laneByte v 2, laneByte v 3, laneByte v 4, laneByte v 5, laneByte v 6, laneByte v 7] := rfl

/-- `le64` of a byte list whose first byte is split off. -/
theorem leNat_cons (b : Byte) (bs : List Byte) : leNat (b :: bs) = b.toNat + 2 ^ 8 * leNat bs := rfl

/-- A byte list is a number below `256` to its length. -/
theorem leNat_lt (bs : List Byte) : leNat bs < 2 ^ (8 * bs.length) := by
  induction bs with
  | nil => simp [leNat]
  | cons b bs ih =>
    rw [leNat_cons, List.length_cons, Nat.mul_add, Nat.pow_add]
    have := b.isLt
    omega

/-- Byte `k` of the number a byte list makes is its byte `k`. -/
theorem leNat_byte (bs : List Byte) : ∀ (k : Nat) (h : k < bs.length), leNat bs / 2 ^ (8 * k) % 2 ^ 8 = bs[k].toNat := by
  induction bs with
  | nil => intro k h; simp at h
  | cons b bs ih =>
    intro k h
    have hb := b.isLt
    cases k with
    | zero => simp [leNat_cons]; omega
    | succ k =>
      have e : 8 * (k + 1) = 8 + 8 * k := by omega
      rw [leNat_cons, e, Nat.pow_add, ← Nat.div_div_eq_div_mul]
      have e2 : (b.toNat + 2 ^ 8 * leNat bs) / 2 ^ 8 = leNat bs := by omega
      rw [e2]
      simpa using ih k (by simpa using h)

/-- Byte `k` of `le64(b)` is byte `k` of `b`. -/
theorem laneByte_le64 (bs : List Byte) (hl : bs.length = 8) (k : Nat) (h : k < 8) :
    laneByte (le64 bs) k = bs[k]'(by omega) := by
  apply BitVec.eq_of_toNat_eq
  have hlt := leNat_lt bs
  rw [hl] at hlt
  rw [laneByte_toNat, le64, BitVec.toNat_ofNat, Nat.mod_eq_of_lt hlt]
  exact leNat_byte bs k (by omega)

/-- Bytes of an XOR are XORs of bytes. -/
theorem laneByte_xor (u v : Lane) (k : Nat) : laneByte (u ^^^ v) k = laneByte u k ^^^ laneByte v k := by
  simp [laneByte, BitVec.extractLsb'_xor]

/-- A lane is the number its eight bytes make. -/
theorem le64_bytesLe (v : Lane) : le64 (bytesLe v) = v := by
  apply BitVec.eq_of_toNat_eq
  have hv := v.isLt
  have h : leNat (bytesLe v) = v.toNat := by
    simp only [bytesLe_eq, leNat, laneByte_toNat]
    omega
  rw [le64, BitVec.toNat_ofNat, h, Nat.mod_eq_of_lt hv]

/-- Two lanes with the same eight bytes are equal. -/
theorem lane_ext {u v : Lane} (h : ∀ k < 8, laneByte u k = laneByte v k) : u = v := by
  have e : bytesLe u = bytesLe v := List.map_congr_left fun k hk => h k (List.mem_range.1 hk)
  rw [← le64_bytesLe u, e, le64_bytesLe]

/-! ### The five steps -/

theorem theta_getElem (S : Lanes) (i : Fin 25) : (theta S)[i] = S[i] ^^^ thetaD S (laneX i) := by
  simp [theta]

theorem rho_getElem (S : Lanes) (i : Fin 25) : (rho S)[i] = rol64 S[i] (RHO i).val := by
  simp [rho]

theorem pi_getElem (S : Lanes) (j : Fin 25) : (pi S)[j] = S[PISRC j] := by
  simp [pi]

theorem chi_getElem (S : Lanes) (i : Fin 25) : (chi S)[i] =
    S[i] ^^^ (~~~ S[laneIndex (laneX i + 1) (laneY i)] &&& S[laneIndex (laneX i + 2) (laneY i)]) := by
  simp [chi]

theorem iota_getElem (S : Lanes) (r : Fin 24) (i : Fin 25) :
    (iota S r)[i] = if i = 0 then S[0] ^^^ RC r else S[i] := by
  by_cases h : i = 0
  · subst h; simp [iota]
  · have h0 : (0 : Nat) ≠ i.val := fun e => h (Fin.ext e.symm)
    simp [iota, h, h0]

@[simp] theorem laneX_laneIndex (x y : Fin 5) : laneX (laneIndex x y) = x := by
  apply Fin.ext; simp [laneX, laneIndex]

@[simp] theorem laneY_laneIndex (x y : Fin 5) : laneY (laneIndex x y) = y := by
  apply Fin.ext; simp [laneY, laneIndex]; omega

/-! ### Absorb and squeeze -/

theorem xorBlock_getElem (S : Lanes) (blk : List Byte) (i : Fin 25) : (xorBlock S blk)[i] =
    if i.val < 17 then S[i] ^^^ le64 ((blk.drop (8 * i.val)).take 8) else S[i] := by
  simp [xorBlock]

theorem squeeze_getElem (S : Lanes) (b : Fin 32) :
    (squeeze S)[b] = laneByte (S[b.val / 8]'(by omega)) (b.val % 8) := by
  simp [squeeze]

/-- `absorbBlock` succeeds on exactly the blocks of 136 bytes, with the effect `xorBlock`. -/
theorem absorbBlock_eq_ok {S T : Lanes} {blk : List Byte} :
    absorbBlock S blk = .ok T ↔ blk.length = 136 ∧ T = xorBlock S blk := by
  unfold absorbBlock
  by_cases h : blk.length = 136 <;> simp [h, eq_comm]

/-! ### The sponge loop -/

@[simp] theorem spongeLoop_zero (S : Lanes) (block : Nat → List Byte) : spongeLoop S block 0 = S := by simp [spongeLoop]

theorem spongeLoop_succ (S : Lanes) (block : Nat → List Byte) (n : Nat) :
    spongeLoop S block (n + 1) = absorbPermute (spongeLoop S block n) (block n) := by
  simp [spongeLoop, List.range_succ]

/-- The loop reads the blocks below its count and no other. -/
theorem spongeLoop_congr {f g : Nat → List Byte} {n : Nat} (S : Lanes) (h : ∀ b < n, f b = g b) :
    spongeLoop S f n = spongeLoop S g n := by
  induction n with
  | zero => simp only [spongeLoop_zero]
  | succ n ih =>
    rw [spongeLoop_succ, spongeLoop_succ, ih fun b hb => h b (by omega), h n (by omega)]

end Sys2Proof.Machine
end

