-- ==== Sys2Proof/Laws/State.lean ====
section
/-! SUPPORT. One lemma per field per update of the state, each by `rfl`; then the two updates made of others (`orByte`,
`memWrite`), which change nothing but `msg`. -/

namespace Sys2Proof.Machine

section
variable (s : State)

@[simp] theorem State.setByte_lanes (a : Nat) (v : Byte) : (s.setByte a v).lanes = s.lanes := rfl
@[simp] theorem State.setByte_msg (a : Nat) (v : Byte) : (s.setByte a v).msg = s.msg.set a v := rfl
@[simp] theorem State.setByte_mlen (a : Nat) (v : Byte) : (s.setByte a v).mlen = s.mlen := rfl
@[simp] theorem State.setByte_plen (a : Nat) (v : Byte) : (s.setByte a v).plen = s.plen := rfl
@[simp] theorem State.setByte_digest (a : Nat) (v : Byte) : (s.setByte a v).digest = s.digest := rfl
@[simp] theorem State.setByte_status (a : Nat) (v : Byte) : (s.setByte a v).status = s.status := rfl
@[simp] theorem State.setByte_errinfo (a : Nat) (v : Byte) : (s.setByte a v).errinfo = s.errinfo := rfl
@[simp] theorem State.setByte_cfg (a : Nat) (v : Byte) : (s.setByte a v).cfg = s.cfg := rfl
@[simp] theorem State.setByte_draw (a : Nat) (v : Byte) : (s.setByte a v).draw = s.draw := rfl
@[simp] theorem State.setByte_port (a : Nat) (v : Byte) : (s.setByte a v).port = s.port := rfl
@[simp] theorem State.setByte_response (a : Nat) (v : Byte) : (s.setByte a v).response = s.response := rfl

@[simp] theorem State.setLanes_lanes (l : Lanes) : (s.setLanes l).lanes = l := rfl
@[simp] theorem State.setLanes_msg (l : Lanes) : (s.setLanes l).msg = s.msg := rfl
@[simp] theorem State.setLanes_mlen (l : Lanes) : (s.setLanes l).mlen = s.mlen := rfl
@[simp] theorem State.setLanes_plen (l : Lanes) : (s.setLanes l).plen = s.plen := rfl
@[simp] theorem State.setLanes_digest (l : Lanes) : (s.setLanes l).digest = s.digest := rfl
@[simp] theorem State.setLanes_status (l : Lanes) : (s.setLanes l).status = s.status := rfl
@[simp] theorem State.setLanes_errinfo (l : Lanes) : (s.setLanes l).errinfo = s.errinfo := rfl
@[simp] theorem State.setLanes_cfg (l : Lanes) : (s.setLanes l).cfg = s.cfg := rfl
@[simp] theorem State.setLanes_draw (l : Lanes) : (s.setLanes l).draw = s.draw := rfl
@[simp] theorem State.setLanes_port (l : Lanes) : (s.setLanes l).port = s.port := rfl
@[simp] theorem State.setLanes_response (l : Lanes) : (s.setLanes l).response = s.response := rfl

@[simp] theorem State.setLane_lanes (i : Fin 25) (v : Lane) : (s.setLane i v).lanes = s.lanes.set i v := rfl
@[simp] theorem State.setLane_msg (i : Fin 25) (v : Lane) : (s.setLane i v).msg = s.msg := rfl
@[simp] theorem State.setLane_mlen (i : Fin 25) (v : Lane) : (s.setLane i v).mlen = s.mlen := rfl
@[simp] theorem State.setLane_plen (i : Fin 25) (v : Lane) : (s.setLane i v).plen = s.plen := rfl
@[simp] theorem State.setLane_digest (i : Fin 25) (v : Lane) : (s.setLane i v).digest = s.digest := rfl
@[simp] theorem State.setLane_status (i : Fin 25) (v : Lane) : (s.setLane i v).status = s.status := rfl
@[simp] theorem State.setLane_errinfo (i : Fin 25) (v : Lane) : (s.setLane i v).errinfo = s.errinfo := rfl
@[simp] theorem State.setLane_cfg (i : Fin 25) (v : Lane) : (s.setLane i v).cfg = s.cfg := rfl
@[simp] theorem State.setLane_draw (i : Fin 25) (v : Lane) : (s.setLane i v).draw = s.draw := rfl
@[simp] theorem State.setLane_port (i : Fin 25) (v : Lane) : (s.setLane i v).port = s.port := rfl
@[simp] theorem State.setLane_response (i : Fin 25) (v : Lane) : (s.setLane i v).response = s.response := rfl

@[simp] theorem State.setDigest_lanes (d : Digest) : (s.setDigest d).lanes = s.lanes := rfl
@[simp] theorem State.setDigest_msg (d : Digest) : (s.setDigest d).msg = s.msg := rfl
@[simp] theorem State.setDigest_mlen (d : Digest) : (s.setDigest d).mlen = s.mlen := rfl
@[simp] theorem State.setDigest_plen (d : Digest) : (s.setDigest d).plen = s.plen := rfl
@[simp] theorem State.setDigest_digest (d : Digest) : (s.setDigest d).digest = d := rfl
@[simp] theorem State.setDigest_status (d : Digest) : (s.setDigest d).status = s.status := rfl
@[simp] theorem State.setDigest_errinfo (d : Digest) : (s.setDigest d).errinfo = s.errinfo := rfl
@[simp] theorem State.setDigest_cfg (d : Digest) : (s.setDigest d).cfg = s.cfg := rfl
@[simp] theorem State.setDigest_draw (d : Digest) : (s.setDigest d).draw = s.draw := rfl
@[simp] theorem State.setDigest_port (d : Digest) : (s.setDigest d).port = s.port := rfl
@[simp] theorem State.setDigest_response (d : Digest) : (s.setDigest d).response = s.response := rfl

@[simp] theorem State.setLengths_lanes (len plen : Nat) : (s.setLengths len plen).lanes = s.lanes := rfl
@[simp] theorem State.setLengths_msg (len plen : Nat) : (s.setLengths len plen).msg = s.msg := rfl
@[simp] theorem State.setLengths_mlen (len plen : Nat) : (s.setLengths len plen).mlen = BitVec.ofNat 24 len := rfl
@[simp] theorem State.setLengths_plen (len plen : Nat) : (s.setLengths len plen).plen = BitVec.ofNat 24 plen := rfl
@[simp] theorem State.setLengths_digest (len plen : Nat) : (s.setLengths len plen).digest = s.digest := rfl
@[simp] theorem State.setLengths_status (len plen : Nat) : (s.setLengths len plen).status = s.status := rfl
@[simp] theorem State.setLengths_errinfo (len plen : Nat) : (s.setLengths len plen).errinfo = s.errinfo := rfl
@[simp] theorem State.setLengths_cfg (len plen : Nat) : (s.setLengths len plen).cfg = s.cfg := rfl
@[simp] theorem State.setLengths_draw (len plen : Nat) : (s.setLengths len plen).draw = s.draw := rfl
@[simp] theorem State.setLengths_port (len plen : Nat) : (s.setLengths len plen).port = s.port := rfl
@[simp] theorem State.setLengths_response (len plen : Nat) : (s.setLengths len plen).response = s.response := rfl

@[simp] theorem State.complete_lanes : (s.complete).lanes = s.lanes := rfl
@[simp] theorem State.complete_msg : (s.complete).msg = s.msg := rfl
@[simp] theorem State.complete_mlen : (s.complete).mlen = s.mlen := rfl
@[simp] theorem State.complete_plen : (s.complete).plen = s.plen := rfl
@[simp] theorem State.complete_digest : (s.complete).digest = s.digest := rfl
@[simp] theorem State.complete_status : (s.complete).status = s.status.succeed := rfl
@[simp] theorem State.complete_errinfo : (s.complete).errinfo = s.errinfo := rfl
@[simp] theorem State.complete_cfg : (s.complete).cfg = s.cfg := rfl
@[simp] theorem State.complete_draw : (s.complete).draw = s.draw := rfl
@[simp] theorem State.complete_port : (s.complete).port = s.port := rfl
@[simp] theorem State.complete_response : (s.complete).response = s.response := rfl

@[simp] theorem State.raise_lanes (e : CmdError) (w : Word) : (s.raise e w).lanes = s.lanes := rfl
@[simp] theorem State.raise_msg (e : CmdError) (w : Word) : (s.raise e w).msg = s.msg := rfl
@[simp] theorem State.raise_mlen (e : CmdError) (w : Word) : (s.raise e w).mlen = s.mlen := rfl
@[simp] theorem State.raise_plen (e : CmdError) (w : Word) : (s.raise e w).plen = s.plen := rfl
@[simp] theorem State.raise_digest (e : CmdError) (w : Word) : (s.raise e w).digest = s.digest := rfl
@[simp] theorem State.raise_status (e : CmdError) (w : Word) : (s.raise e w).status = s.status.fail e := rfl
@[simp] theorem State.raise_errinfo (e : CmdError) (w : Word) : (s.raise e w).errinfo = w := rfl
@[simp] theorem State.raise_cfg (e : CmdError) (w : Word) : (s.raise e w).cfg = s.cfg := rfl
@[simp] theorem State.raise_draw (e : CmdError) (w : Word) : (s.raise e w).draw = s.draw := rfl
@[simp] theorem State.raise_port (e : CmdError) (w : Word) : (s.raise e w).port = s.port := rfl
@[simp] theorem State.raise_response (e : CmdError) (w : Word) : (s.raise e w).response = s.response := rfl

@[simp] theorem State.clearErrors_lanes : (s.clearErrors).lanes = s.lanes := rfl
@[simp] theorem State.clearErrors_msg : (s.clearErrors).msg = s.msg := rfl
@[simp] theorem State.clearErrors_mlen : (s.clearErrors).mlen = s.mlen := rfl
@[simp] theorem State.clearErrors_plen : (s.clearErrors).plen = s.plen := rfl
@[simp] theorem State.clearErrors_digest : (s.clearErrors).digest = s.digest := rfl
@[simp] theorem State.clearErrors_status : (s.clearErrors).status = s.status.clearSticky := rfl
@[simp] theorem State.clearErrors_errinfo : (s.clearErrors).errinfo = 0 := rfl
@[simp] theorem State.clearErrors_cfg : (s.clearErrors).cfg = s.cfg := rfl
@[simp] theorem State.clearErrors_draw : (s.clearErrors).draw = s.draw := rfl
@[simp] theorem State.clearErrors_port : (s.clearErrors).port = s.port := rfl
@[simp] theorem State.clearErrors_response : (s.clearErrors).response = s.response := rfl

@[simp] theorem State.respond_lanes (r : Response) : (s.respond r).lanes = s.lanes := rfl
@[simp] theorem State.respond_msg (r : Response) : (s.respond r).msg = s.msg := rfl
@[simp] theorem State.respond_mlen (r : Response) : (s.respond r).mlen = s.mlen := rfl
@[simp] theorem State.respond_plen (r : Response) : (s.respond r).plen = s.plen := rfl
@[simp] theorem State.respond_digest (r : Response) : (s.respond r).digest = s.digest := rfl
@[simp] theorem State.respond_status (r : Response) : (s.respond r).status = s.status := rfl
@[simp] theorem State.respond_errinfo (r : Response) : (s.respond r).errinfo = s.errinfo := rfl
@[simp] theorem State.respond_cfg (r : Response) : (s.respond r).cfg = s.cfg := rfl
@[simp] theorem State.respond_draw (r : Response) : (s.respond r).draw = s.draw := rfl
@[simp] theorem State.respond_port (r : Response) : (s.respond r).port = s.port := rfl
@[simp] theorem State.respond_response (r : Response) : (s.respond r).response = some r := rfl

@[simp] theorem State.applyReset_lanes : s.applyReset.lanes = State.reset.lanes := rfl
@[simp] theorem State.applyReset_msg : s.applyReset.msg = State.reset.msg := rfl
@[simp] theorem State.applyReset_mlen : s.applyReset.mlen = State.reset.mlen := rfl
@[simp] theorem State.applyReset_plen : s.applyReset.plen = State.reset.plen := rfl
@[simp] theorem State.applyReset_digest : s.applyReset.digest = State.reset.digest := rfl
@[simp] theorem State.applyReset_status : s.applyReset.status = State.reset.status := rfl
@[simp] theorem State.applyReset_errinfo : s.applyReset.errinfo = State.reset.errinfo := rfl
@[simp] theorem State.applyReset_cfg : s.applyReset.cfg = s.cfg := rfl
@[simp] theorem State.applyReset_draw : s.applyReset.draw = s.draw + 1 := rfl
@[simp] theorem State.applyReset_port : s.applyReset.port = s.port := rfl
@[simp] theorem State.applyReset_response : s.applyReset.response = State.reset.response := rfl

@[simp] theorem State.orByte_lanes (a : Nat) (v : Byte) : (s.orByte a v).lanes = s.lanes := rfl
@[simp] theorem State.orByte_mlen (a : Nat) (v : Byte) : (s.orByte a v).mlen = s.mlen := rfl
@[simp] theorem State.orByte_plen (a : Nat) (v : Byte) : (s.orByte a v).plen = s.plen := rfl
@[simp] theorem State.orByte_digest (a : Nat) (v : Byte) : (s.orByte a v).digest = s.digest := rfl
@[simp] theorem State.orByte_status (a : Nat) (v : Byte) : (s.orByte a v).status = s.status := rfl
@[simp] theorem State.orByte_errinfo (a : Nat) (v : Byte) : (s.orByte a v).errinfo = s.errinfo := rfl
@[simp] theorem State.orByte_cfg (a : Nat) (v : Byte) : (s.orByte a v).cfg = s.cfg := rfl
@[simp] theorem State.orByte_draw (a : Nat) (v : Byte) : (s.orByte a v).draw = s.draw := rfl
@[simp] theorem State.orByte_port (a : Nat) (v : Byte) : (s.orByte a v).port = s.port := rfl
@[simp] theorem State.orByte_response (a : Nat) (v : Byte) : (s.orByte a v).response = s.response := rfl

end

@[simp] theorem State.memWrite_lanes (bs : List Byte) : ∀ (s : State) (a : Nat), (s.memWrite a bs).lanes = s.lanes := by
  induction bs with
  | nil => intro s a; rfl
  | cons b bs ih => intro s a; exact ih _ _

@[simp] theorem State.memWrite_mlen (bs : List Byte) : ∀ (s : State) (a : Nat), (s.memWrite a bs).mlen = s.mlen := by
  induction bs with
  | nil => intro s a; rfl
  | cons b bs ih => intro s a; exact ih _ _

@[simp] theorem State.memWrite_plen (bs : List Byte) : ∀ (s : State) (a : Nat), (s.memWrite a bs).plen = s.plen := by
  induction bs with
  | nil => intro s a; rfl
  | cons b bs ih => intro s a; exact ih _ _

@[simp] theorem State.memWrite_digest (bs : List Byte) : ∀ (s : State) (a : Nat), (s.memWrite a bs).digest = s.digest := by
  induction bs with
  | nil => intro s a; rfl
  | cons b bs ih => intro s a; exact ih _ _

@[simp] theorem State.memWrite_status (bs : List Byte) : ∀ (s : State) (a : Nat), (s.memWrite a bs).status = s.status := by
  induction bs with
  | nil => intro s a; rfl
  | cons b bs ih => intro s a; exact ih _ _

@[simp] theorem State.memWrite_errinfo (bs : List Byte) : ∀ (s : State) (a : Nat), (s.memWrite a bs).errinfo = s.errinfo := by
  induction bs with
  | nil => intro s a; rfl
  | cons b bs ih => intro s a; exact ih _ _

@[simp] theorem State.memWrite_cfg (bs : List Byte) : ∀ (s : State) (a : Nat), (s.memWrite a bs).cfg = s.cfg := by
  induction bs with
  | nil => intro s a; rfl
  | cons b bs ih => intro s a; exact ih _ _

@[simp] theorem State.memWrite_draw (bs : List Byte) : ∀ (s : State) (a : Nat), (s.memWrite a bs).draw = s.draw := by
  induction bs with
  | nil => intro s a; rfl
  | cons b bs ih => intro s a; exact ih _ _

@[simp] theorem State.memWrite_port (bs : List Byte) : ∀ (s : State) (a : Nat), (s.memWrite a bs).port = s.port := by
  induction bs with
  | nil => intro s a; rfl
  | cons b bs ih => intro s a; exact ih _ _

@[simp] theorem State.memWrite_response (bs : List Byte) : ∀ (s : State) (a : Nat), (s.memWrite a bs).response = s.response := by
  induction bs with
  | nil => intro s a; rfl
  | cons b bs ih => intro s a; exact ih _ _

@[simp] theorem Status.succeed_err (t : Status) : t.succeed.err = none := rfl
@[simp] theorem Status.succeed_sticky (t : Status) : t.succeed.sticky = t.sticky := rfl
@[simp] theorem Status.fail_err (t : Status) (e : CmdError) : (t.fail e).err = some e := rfl
@[simp] theorem Status.fail_sticky (t : Status) (e : CmdError) : (t.fail e).sticky = t.sticky.mark e := rfl
@[simp] theorem Status.clearSticky_err (t : Status) : t.clearSticky.err = t.err := rfl
@[simp] theorem Status.clearSticky_sticky (t : Status) : t.clearSticky.sticky = Sticky.clear := rfl

/-- Marking an error sets its own sticky bit and no other. -/
theorem Sticky.has_mark (t : Sticky) (e f : CmdError) : (t.mark e).has f = (t.has f || decide (e = f)) := by
  cases e <;> cases f <;> simp [Sticky.mark, Sticky.has]

@[simp] theorem Sticky.has_clear (e : CmdError) : Sticky.clear.has e = false := by cases e <;> rfl

/-- A sticky field with a bit set is not the clear one. -/
theorem Sticky.mark_ne_clear (t : Sticky) (e : CmdError) : t.mark e ≠ Sticky.clear := by
  cases e <;> simp [Sticky.mark, Sticky.clear]

end Sys2Proof.Machine
end

