-- ==== Sys2Proof/Laws/Memory.lean ====
section
/-! SUPPORT. The laws of the message buffer: a read after a write, what a write leaves alone, the canonical form, and what
the operations over sequences of bytes do. -/

namespace Sys2Proof.Machine

/-! ### One cell -/

@[simp] theorem Memory.get?_nil (x : Nat) : Memory.get? [] x = none := rfl

/-- A read after a write: the written byte at its own offset, the old one elsewhere. -/
theorem Memory.get?_set (m : Memory) (a x : Nat) (v : Byte) :
    (m.set a v).get? x = if x = a then some v else m.get? x := by
  induction m with
  | nil => simp [Memory.set, Memory.get?, Memory.unlisted]
  | cons c m ih =>
    obtain ⟨b, w⟩ := c
    rcases Nat.lt_trichotomy a b with h | h | h
    · simp [Memory.set, Memory.get?, h]
    · subst h; by_cases hx : x = a <;> simp [Memory.set, Memory.get?, hx]
    · have h1 : ¬ a < b := by omega
      have h2 : a ≠ b := by omega
      by_cases hx : x = b
      · subst hx; simp [Memory.set, Memory.get?, h1, h2, h2.symm]
      · simp [Memory.set, Memory.get?, h1, h2, hx, ih]

/-- The offsets listed after a write are the written one and those listed before. -/
theorem Memory.mem_set {m : Memory} {a : Nat} {v : Byte} {c : Host.Cell} (h : c ∈ m.set a v) :
    c = (a, v) ∨ c ∈ m := by
  induction m with
  | nil => simpa [Memory.set] using h
  | cons d m ih =>
    obtain ⟨b, w⟩ := d
    unfold Memory.set at h
    split_ifs at h
    · simpa using h
    · rcases List.mem_cons.1 h with h | h
      · exact .inl h
      · exact .inr (List.mem_cons_of_mem _ h)
    · rcases List.mem_cons.1 h with h | h
      · exact .inr (by simp [h])
      · exact (ih h).imp id (List.mem_cons_of_mem _)

/-- A write keeps the canonical form. -/
theorem Memory.wf_set {m : Memory} (h : m.wf) (a : Nat) (v : Byte) : (m.set a v).wf := by
  induction m with
  | nil => simp [Memory.set, Memory.wf]
  | cons d m ih =>
    obtain ⟨b, w⟩ := d
    obtain ⟨hb, hm⟩ := List.pairwise_cons.1 h
    unfold Memory.set
    split_ifs with h1 h2
    · refine List.pairwise_cons.2 ⟨fun c hc => ?_, h⟩
      rcases List.mem_cons.1 hc with rfl | hc
      · exact h1
      · exact h1.trans (hb c hc)
    · subst h2; exact List.pairwise_cons.2 ⟨hb, hm⟩
    · refine List.pairwise_cons.2 ⟨fun c hc => ?_, ih hm⟩
      rcases Memory.mem_set hc with rfl | hc
      · show b < a; omega
      · exact hb c hc

/-- In a canonical buffer no offset below the first cell is listed. -/
theorem Memory.get?_of_lt {m : Memory} {x : Nat} (h : ∀ c ∈ m, x < c.1) : m.get? x = none := by
  induction m with
  | nil => rfl
  | cons d m ih =>
    obtain ⟨b, w⟩ := d
    have hb : x ≠ b := (h (b, w) (by simp)).ne
    simp only [Memory.get?, hb, if_false]
    exact ih fun c hc => h c (by simp [hc])

/-- Equal buffers are equal data: two canonical buffers that read alike everywhere are the same list. -/
theorem Memory.ext_of_wf {m n : Memory} (hm : m.wf) (hn : n.wf) (h : ∀ x, m.get? x = n.get? x) : m = n := by
  induction m generalizing n with
  | nil =>
    cases n with
    | nil => rfl
    | cons d n => exact absurd (h d.1) (by simp [Memory.get?, Memory.unlisted])
  | cons c m ih =>
    obtain ⟨a, v⟩ := c
    obtain ⟨hma, hm'⟩ := List.pairwise_cons.1 hm
    cases n with
    | nil => exact absurd (h a) (by simp [Memory.get?, Memory.unlisted])
    | cons d n =>
      obtain ⟨b, w⟩ := d
      obtain ⟨hnb, hn'⟩ := List.pairwise_cons.1 hn
      have hab : a = b := by
        rcases Nat.lt_trichotomy a b with hlt | heq | hgt
        · have hnone : Memory.get? ((b, w) :: n) a = none := Memory.get?_of_lt fun c hc => by
            rcases List.mem_cons.1 hc with rfl | hc
            · exact hlt
            · exact hlt.trans (hnb c hc)
          have := h a
          rw [hnone] at this
          simp [Memory.get?] at this
        · exact heq
        · have hnone : Memory.get? ((a, v) :: m) b = none := Memory.get?_of_lt fun c hc => by
            rcases List.mem_cons.1 hc with rfl | hc
            · exact hgt
            · exact hgt.trans (hma c hc)
          have := h b
          rw [hnone] at this
          simp [Memory.get?] at this
      subst hab
      have hvw : v = w := by simpa [Memory.get?] using h a
      subst hvw
      congr 1
      refine ih hm' hn' fun x => ?_
      by_cases hx : x = a
      · subst hx
        rw [Memory.get?_of_lt hma, Memory.get?_of_lt hnb]
      · simpa [Memory.get?, hx] using h x

/-! ### One byte of the state -/

/-- A buffer byte depends on the written cells and the draw alone. -/
theorem State.msgByte_congr {s t : State} (hm : s.msg = t.msg) (hd : s.draw = t.draw) (x : Nat) :
    s.msgByte x = t.msgByte x := by
  simp [State.msgByte, hm, hd]

theorem State.msgByte_setByte (s : State) (a x : Nat) (v : Byte) :
    (s.setByte a v).msgByte x = if x = a then v else s.msgByte x := by
  by_cases h : x = a <;> simp [State.msgByte, Memory.get?_set, h]

theorem State.msgByte_orByte (s : State) (a x : Nat) (v : Byte) :
    (s.orByte a v).msgByte x = if x = a then s.msgByte a ||| v else s.msgByte x :=
  s.msgByte_setByte a x _

@[simp] theorem State.msgByte_setLanes (s : State) (l : Lanes) (x : Nat) : (s.setLanes l).msgByte x = s.msgByte x := rfl
@[simp] theorem State.msgByte_setLane (s : State) (i : Fin 25) (v : Lane) (x : Nat) :
    (s.setLane i v).msgByte x = s.msgByte x := rfl
@[simp] theorem State.msgByte_setDigest (s : State) (d : Digest) (x : Nat) : (s.setDigest d).msgByte x = s.msgByte x := rfl
@[simp] theorem State.msgByte_setLengths (s : State) (l p x : Nat) : (s.setLengths l p).msgByte x = s.msgByte x := rfl
@[simp] theorem State.msgByte_complete (s : State) (x : Nat) : s.complete.msgByte x = s.msgByte x := rfl
@[simp] theorem State.msgByte_raise (s : State) (e : CmdError) (w : Word) (x : Nat) : (s.raise e w).msgByte x = s.msgByte x := rfl
@[simp] theorem State.msgByte_clearErrors (s : State) (x : Nat) : s.clearErrors.msgByte x = s.msgByte x := rfl
@[simp] theorem State.msgByte_respond (s : State) (r : Response) (x : Nat) : (s.respond r).msgByte x = s.msgByte x := rfl

/-! ### Sequences of bytes -/

@[simp] theorem State.memRead_length (s : State) (a n : Nat) : (s.memRead a n).length = n := by simp [State.memRead]

theorem State.memRead_getElem (s : State) (a n i : Nat) (h : i < (s.memRead a n).length) :
    (s.memRead a n)[i] = s.msgByte (a + i) := by simp [State.memRead]

/-- Two reads are equal when every byte of them is. -/
theorem State.memRead_congr {s t : State} {a n : Nat} (h : ∀ i < n, s.msgByte (a + i) = t.msgByte (a + i)) :
    s.memRead a n = t.memRead a n :=
  List.map_congr_left fun i hi => h i (List.mem_range.1 hi)

/-- A sequence of writes, byte by byte. -/
theorem State.msgByte_memWrite (bs : List Byte) : ∀ (s : State) (a x : Nat),
    (s.memWrite a bs).msgByte x = if h : a ≤ x ∧ x - a < bs.length then bs[x - a] else s.msgByte x := by
  induction bs with
  | nil => intro s a x; simp [State.memWrite]
  | cons b bs ih =>
    intro s a x
    rw [State.memWrite, ih, State.msgByte_setByte]
    by_cases hx : x = a
    · subst hx; simp
    · by_cases hlt : a + 1 ≤ x ∧ x - (a + 1) < bs.length
      · have h2 : a ≤ x ∧ x - a < (b :: bs).length := by simp; omega
        rw [dif_pos hlt, dif_pos h2]
        have : x - a = x - (a + 1) + 1 := by omega
        simp [this]
      · have h2 : ¬ (a ≤ x ∧ x - a < (b :: bs).length) := by simp; omega
        rw [dif_neg hlt, dif_neg h2, if_neg hx]

theorem State.memWrite_wf (bs : List Byte) : ∀ (s : State) (a : Nat), s.msg.wf → (s.memWrite a bs).msg.wf := by
  induction bs with
  | nil => intro s a h; exact h
  | cons b bs ih => intro s a h; exact ih _ _ (Memory.wf_set h a b)

theorem State.orByte_wf {s : State} (h : s.msg.wf) (a : Nat) (v : Byte) : (s.orByte a v).msg.wf := Memory.wf_set h a _

/-- A sequence of writes below a bound lists no offset at or above it. -/
theorem State.memWrite_inside (bs : List Byte) {n : Nat} : ∀ (s : State) (a : Nat), (∀ c ∈ s.msg, c.1 < n) →
    a + bs.length ≤ n → ∀ c ∈ (s.memWrite a bs).msg, c.1 < n := by
  induction bs with
  | nil => intro s a h _; exact h
  | cons b bs ih =>
    intro s a h hn
    simp only [List.length_cons] at hn
    refine ih _ _ (fun c hc => ?_) (by omega)
    rcases Memory.mem_set hc with rfl | hc
    · show a < n; omega
    · exact h c hc

theorem State.orByte_inside {s : State} {n a : Nat} (h : ∀ c ∈ s.msg, c.1 < n) (ha : a < n) (v : Byte) :
    ∀ c ∈ (s.orByte a v).msg, c.1 < n := fun c hc => by
  rcases Memory.mem_set hc with rfl | hc
  · exact ha
  · exact h c hc

/-- Reset lists nothing, which is canonical. -/
theorem State.reset_msg_wf : State.reset.msg.wf := List.Pairwise.nil

end Sys2Proof.Machine
end

