-- ==== Sys2Proof/Laws/Padding.lean ====
section
/-! SUPPORT. What the padding of the buffer does, byte by byte and field by field, and the arithmetic of lengths. -/

namespace Sys2Proof.Machine

/-- `plen = len + rem`. -/
theorem paddedLength_eq (len : Nat) : paddedLength len = len + padCount len := by
  simp only [paddedLength, padCount, blockCount, rate]
  omega

theorem padCount_pos (len : Nat) : 0 < padCount len := by
  simp only [padCount, rate]
  omega

theorem padCount_le (len : Nat) : padCount len ≤ 136 := by
  simp only [padCount, rate]
  omega

/-- The padded message fits the buffer exactly when the message is shorter than the buffer (42_padding.md R107). -/
theorem paddedLength_le_msgCap_iff (c : Config) (len : Nat) : ¬ c.msgCap < paddedLength len ↔ len < c.msgCap := by
  simp only [paddedLength, blockCount, Config.msgCap, rate]
  omega

/-- The buffer is smaller than what 24 bits count (00_scope.md R6). -/
theorem msgCap_lt (c : Config) : c.msgCap < 2 ^ 24 := by
  have := c.lastSlot.isLt
  simp only [Config.msgCap, Config.maxBlocks, rate]
  omega

/-- The padding byte at offset `a` of a message of length `len`. -/
def padByte (len a : Nat) : Byte :=
  (if a = len then padFirst else 0) ||| (if a = paddedLength len - 1 then padLast else 0)

/-- Every byte of the buffer after the padding: the padding in `[len .. plen)`, the old byte elsewhere. -/
theorem State.msgByte_padBuffer (s : State) (len a : Nat) : (s.padBuffer len).msgByte a =
    if len ≤ a ∧ a < paddedLength len then padByte len a else s.msgByte a := by
  have hpos := padCount_pos len
  have hP := paddedLength_eq len
  have hz : ∀ x, (s.memWrite len (zeros (padCount len))).msgByte x =
      if len ≤ x ∧ x < paddedLength len then 0 else s.msgByte x := fun x => by
    rw [State.msgByte_memWrite]
    by_cases h : len ≤ x ∧ x < paddedLength len
    · have h' : len ≤ x ∧ x - len < (zeros (padCount len)).length := by simp [zeros]; omega
      rw [dif_pos h', if_pos h]
      simp [zeros]
    · have h' : ¬ (len ≤ x ∧ x - len < (zeros (padCount len)).length) := by simp [zeros]; omega
      rw [dif_neg h', if_neg h]
  simp only [State.padBuffer, State.msgByte_setLengths, State.msgByte_orByte, hz, padByte]
  have hl : len ≤ len ∧ len < paddedLength len := by omega
  by_cases h1 : a = len
  · subst h1
    by_cases h2 : a = paddedLength a - 1
    · simp [← h2, hl]
    · simp [h2, hl]
  · by_cases h2 : a = paddedLength len - 1
    · have h3 : len ≤ paddedLength len - 1 ∧ paddedLength len - 1 < paddedLength len := by omega
      have h4 : paddedLength len - 1 ≠ len := by omega
      simp [h2, h3, h4]
    · simp [h1, h2]

@[simp] theorem State.padBuffer_lanes (s : State) (len : Nat) : (s.padBuffer len).lanes = s.lanes := by simp [State.padBuffer]
@[simp] theorem State.padBuffer_digest (s : State) (len : Nat) : (s.padBuffer len).digest = s.digest := by simp [State.padBuffer]
@[simp] theorem State.padBuffer_status (s : State) (len : Nat) : (s.padBuffer len).status = s.status := by simp [State.padBuffer]
@[simp] theorem State.padBuffer_errinfo (s : State) (len : Nat) : (s.padBuffer len).errinfo = s.errinfo := by simp [State.padBuffer]
@[simp] theorem State.padBuffer_cfg (s : State) (len : Nat) : (s.padBuffer len).cfg = s.cfg := by simp [State.padBuffer]
@[simp] theorem State.padBuffer_draw (s : State) (len : Nat) : (s.padBuffer len).draw = s.draw := by simp [State.padBuffer]
@[simp] theorem State.padBuffer_port (s : State) (len : Nat) : (s.padBuffer len).port = s.port := by simp [State.padBuffer]
@[simp] theorem State.padBuffer_response (s : State) (len : Nat) : (s.padBuffer len).response = s.response := by
  simp [State.padBuffer]
@[simp] theorem State.padBuffer_mlen (s : State) (len : Nat) : (s.padBuffer len).mlen = BitVec.ofNat 24 len := rfl
@[simp] theorem State.padBuffer_plen (s : State) (len : Nat) :
    (s.padBuffer len).plen = BitVec.ofNat 24 (paddedLength len) := rfl

/-- The padding keeps the canonical form. -/
theorem State.padBuffer_wf {s : State} (h : s.msg.wf) (len : Nat) : (s.padBuffer len).msg.wf :=
  State.orByte_wf (State.orByte_wf (State.memWrite_wf _ _ _ h) _ _) _ _

/-- The padding of a message that fits stays inside the buffer. -/
theorem State.padBuffer_inside {s : State} {n len : Nat} (h : ∀ c ∈ s.msg, c.1 < n) (hn : paddedLength len ≤ n) :
    ∀ c ∈ (s.padBuffer len).msg, c.1 < n := by
  have hpos := padCount_pos len
  have hP := paddedLength_eq len
  refine State.orByte_inside (State.orByte_inside (State.memWrite_inside _ _ _ h ?_) ?_ _) ?_ _
  · simp [zeros]; omega
  · omega
  · omega

/-- What the padding writes to the list of cells: the padding bytes are written, the others as before. -/
theorem State.padBuffer_get? (s : State) (len a : Nat) : (s.padBuffer len).msg.get? a =
    if len ≤ a ∧ a < paddedLength len then some (padByte len a) else s.msg.get? a := by
  have key : ∀ (bs : List Byte) (t : State) (b : Nat), (t.memWrite b bs).msg.get? a =
      if h : b ≤ a ∧ a - b < bs.length then some bs[a - b] else t.msg.get? a := by
    intro bs
    induction bs with
    | nil => intro t b; simp [State.memWrite]
    | cons x bs ih =>
      intro t b
      rw [State.memWrite, ih, State.setByte_msg, Memory.get?_set]
      by_cases hx : a = b
      · subst hx; simp
      · by_cases hlt : b + 1 ≤ a ∧ a - (b + 1) < bs.length
        · have h2 : b ≤ a ∧ a - b < (x :: bs).length := by simp; omega
          have h3 : a - b = a - (b + 1) + 1 := by omega
          rw [dif_pos hlt, dif_pos h2]
          simp [h3]
        · have h2 : ¬ (b ≤ a ∧ a - b < (x :: bs).length) := by simp; omega
          rw [dif_neg hlt, dif_neg h2, if_neg hx]
  have hm := s.msgByte_padBuffer len a
  by_cases h : len ≤ a ∧ a < paddedLength len
  · rw [if_pos h] at hm ⊢
    have hsome : ∃ v, (s.padBuffer len).msg.get? a = some v := by
      have hP := paddedLength_eq len
      have h' : len ≤ a ∧ a - len < (zeros (padCount len)).length := by simp [zeros]; omega
      show ∃ v, (((s.memWrite len (zeros (padCount len))).orByte len padFirst).orByte (paddedLength len - 1) padLast).msg.get? a
        = some v
      simp only [State.orByte, State.setByte_msg, Memory.get?_set, key, dif_pos h']
      split
      · exact ⟨_, rfl⟩
      · split
        · exact ⟨_, rfl⟩
        · exact ⟨_, rfl⟩
    obtain ⟨v, hv⟩ := hsome
    rw [hv, ← hm, State.msgByte, hv, Option.getD_some]
  · rw [if_neg h]
    have hP := paddedLength_eq len
    have hpos := padCount_pos len
    have h1 : a ≠ len := by omega
    have h2 : a ≠ paddedLength len - 1 := by omega
    have h' : ¬ (len ≤ a ∧ a - len < (zeros (padCount len)).length) := by simp [zeros]; omega
    show (((s.memWrite len (zeros (padCount len))).orByte len padFirst).orByte (paddedLength len - 1) padLast).msg.get? a = _
    simp only [State.orByte, State.setByte_msg, Memory.get?_set, key, dif_neg h', if_neg h1, if_neg h2]

/-! ### What the padding reads of the state: the cells and the draw, nothing else -/

theorem State.memWrite_msg_congr (bs : List Byte) : ∀ (s t : State) (a : Nat), s.msg = t.msg →
    (s.memWrite a bs).msg = (t.memWrite a bs).msg := by
  induction bs with
  | nil => intro s t a h; exact h
  | cons b bs ih => intro s t a h; exact ih _ _ _ (congrArg (Memory.set · a b) h)

theorem State.orByte_msg_congr {s t : State} (hm : s.msg = t.msg) (hd : s.draw = t.draw) (a : Nat) (v : Byte) :
    (s.orByte a v).msg = (t.orByte a v).msg := by
  simp only [State.orByte, State.setByte_msg, hm, State.msgByte_congr hm hd]

theorem State.padBuffer_msg_congr {s t : State} (hm : s.msg = t.msg) (hd : s.draw = t.draw) (len : Nat) :
    (s.padBuffer len).msg = (t.padBuffer len).msg := by
  simp only [State.padBuffer, State.setLengths_msg]
  refine State.orByte_msg_congr (State.orByte_msg_congr (State.memWrite_msg_congr _ _ _ _ hm) ?_ _ _) ?_ _ _ <;>
    simpa using hd

end Sys2Proof.Machine
end

