-- ==== Sys2Proof/Laws/Commands.lean ====
section
/-! SUPPORT. What each meaning does, said once: the error it ends in and its condition, or the success. -/

namespace Sys2Proof.Machine

theorem execPad_of_le {s : State} {len : Nat} (h : s.cfg.msgCap ≤ len) :
    execPad len s = .next (s.raise .lengthOutOfRange (encode (.pad len))) := by
  have hc := mt (paddedLength_le_msgCap_iff s.cfg len).1 (by omega)
  rw [execPad, if_pos (not_not.1 hc)]

theorem execPad_of_lt {s : State} {len : Nat} (h : len < s.cfg.msgCap) :
    execPad len s = .next (s.padBuffer len).complete := by
  rw [execPad, if_neg ((paddedLength_le_msgCap_iff s.cfg len).2 h)]

theorem execAbsorb_of_ne {s : State} {k n : Nat} (h : n ≠ 136) :
    execAbsorb k n s = .next (s.raise .invalidBlockSize (encode (.absorb k n))) := by
  rw [execAbsorb, if_pos h]

theorem execAbsorb_of_le {s : State} {k : Nat} (h : s.cfg.maxBlocks ≤ k) :
    execAbsorb k 136 s = .next (s.raise .blockOutOfRange (encode (.absorb k 136))) := by
  rw [execAbsorb, if_neg (by simp), if_pos h]

theorem execAbsorb_of_lt {s : State} {k : Nat} (h : k < s.cfg.maxBlocks) : execAbsorb k 136 s =
    .next (s.setLanes (xorBlock s.lanes (s.memRead (blockOffset k) rate))).complete := by
  have hb : absorbBlock s.lanes (s.memRead (blockOffset k) rate) =
      .ok (xorBlock s.lanes (s.memRead (blockOffset k) rate)) := absorbBlock_eq_ok.2 ⟨s.memRead_length _ _, rfl⟩
  rw [execAbsorb, if_neg (by simp), if_neg (by omega), hb]

theorem execHash_of_le {s : State} {len : Nat} (h : s.cfg.msgCap ≤ len) :
    execHash len s = .next (s.raise .lengthOutOfRange (encode (.hash len))) := by
  have hc := mt (paddedLength_le_msgCap_iff s.cfg len).1 (by omega)
  rw [execHash, if_pos (not_not.1 hc)]

theorem execHash_of_lt {s : State} {len : Nat} (h : len < s.cfg.msgCap) :
    execHash len s = .next ((s.padBuffer len).hashBuffer (blockCount len)).complete := by
  rw [execHash, if_neg ((paddedLength_le_msgCap_iff s.cfg len).2 h)]

/-- The part of `HASH` after the padding changes the lanes and the digest. -/
@[simp] theorem State.hashBuffer_lanes (s : State) (n : Nat) : (s.hashBuffer n).lanes = Lanes.zero := by
  simp only [State.hashBuffer, State.setLanes, State.setDigest]
@[simp] theorem State.hashBuffer_msg (s : State) (n : Nat) : (s.hashBuffer n).msg = s.msg := by
  simp only [State.hashBuffer, State.setLanes, State.setDigest]
@[simp] theorem State.hashBuffer_mlen (s : State) (n : Nat) : (s.hashBuffer n).mlen = s.mlen := by
  simp only [State.hashBuffer, State.setLanes, State.setDigest]
@[simp] theorem State.hashBuffer_plen (s : State) (n : Nat) : (s.hashBuffer n).plen = s.plen := by
  simp only [State.hashBuffer, State.setLanes, State.setDigest]
@[simp] theorem State.hashBuffer_status (s : State) (n : Nat) : (s.hashBuffer n).status = s.status := by
  simp only [State.hashBuffer, State.setLanes, State.setDigest]
@[simp] theorem State.hashBuffer_errinfo (s : State) (n : Nat) : (s.hashBuffer n).errinfo = s.errinfo := by
  simp only [State.hashBuffer, State.setLanes, State.setDigest]
@[simp] theorem State.hashBuffer_cfg (s : State) (n : Nat) : (s.hashBuffer n).cfg = s.cfg := by
  simp only [State.hashBuffer, State.setLanes, State.setDigest]
@[simp] theorem State.hashBuffer_draw (s : State) (n : Nat) : (s.hashBuffer n).draw = s.draw := by
  simp only [State.hashBuffer, State.setLanes, State.setDigest]
@[simp] theorem State.hashBuffer_port (s : State) (n : Nat) : (s.hashBuffer n).port = s.port := by
  simp only [State.hashBuffer, State.setLanes, State.setDigest]
@[simp] theorem State.hashBuffer_response (s : State) (n : Nat) : (s.hashBuffer n).response = s.response := by
  simp only [State.hashBuffer, State.setLanes, State.setDigest]
@[simp] theorem State.hashBuffer_digest (s : State) (n : Nat) : (s.hashBuffer n).digest =
    squeeze (spongeLoop Lanes.zero (fun b => s.memRead (blockOffset b) rate) n) := by
  simp only [State.hashBuffer, State.setLanes, State.setDigest]

/-- What a command can do to the state, and when: the successes of the seven commands. -/
inductive Succeeds (s : State) : Instr → State → Prop where
  | init : Succeeds s .init (s.setLanes Lanes.zero).complete
  | permute : Succeeds s .permute (s.setLanes (permute s.lanes)).complete
  | pad {len : Nat} (h : len < s.cfg.msgCap) : Succeeds s (.pad len) (s.padBuffer len).complete
  | absorb {k : Nat} (h : k < s.cfg.maxBlocks) :
    Succeeds s (.absorb k 136) (s.setLanes (xorBlock s.lanes (s.memRead (blockOffset k) rate))).complete
  | squeeze : Succeeds s .squeeze ((s.setDigest (squeeze s.lanes)).setLanes Lanes.zero).complete
  | hash {len : Nat} (h : len < s.cfg.msgCap) :
    Succeeds s (.hash len) ((s.padBuffer len).hashBuffer (blockCount len)).complete
  | clrerr : Succeeds s .clrerr s.clearErrors.complete

/-- What a command can do to the state, and when: the errors. -/
inductive Fails (s : State) : Instr → CmdError → Prop where
  | pad {len : Nat} (h : s.cfg.msgCap ≤ len) : Fails s (.pad len) .lengthOutOfRange
  | absorbLength {k n : Nat} (h : n ≠ 136) : Fails s (.absorb k n) .invalidBlockSize
  | absorbSlot {k : Nat} (h : s.cfg.maxBlocks ≤ k) : Fails s (.absorb k 136) .blockOutOfRange
  | hash {len : Nat} (h : s.cfg.msgCap ≤ len) : Fails s (.hash len) .lengthOutOfRange

theorem exec_eq_of_succeeds {s t : State} {i : Instr} (h : Succeeds s i t) : exec i s = .next t := by
  cases h with
  | init => rfl
  | permute => rw [exec, execPermute]
  | pad h => exact execPad_of_lt h
  | absorb h => exact execAbsorb_of_lt h
  | squeeze => rw [exec, execSqueeze]
  | hash h => exact execHash_of_lt h
  | clrerr => rfl

theorem exec_eq_of_fails {s : State} {i : Instr} {e : CmdError} (h : Fails s i e) :
    exec i s = .next (s.raise e (encode i)) := by
  cases h with
  | pad h => exact execPad_of_le h
  | absorbLength h => exact execAbsorb_of_ne h
  | absorbSlot h => exact execAbsorb_of_le h
  | hash h => exact execHash_of_le h

/-- Every command either succeeds or fails. -/
theorem succeeds_or_fails (s : State) (i : Instr) : (∃ t, Succeeds s i t) ∨ ∃ e, Fails s i e := by
  cases i with
  | init => exact .inl ⟨_, .init⟩
  | permute => exact .inl ⟨_, .permute⟩
  | pad len =>
    rcases Nat.lt_or_ge len s.cfg.msgCap with h | h
    · exact .inl ⟨_, .pad h⟩
    · exact .inr ⟨_, .pad h⟩
  | absorb k n =>
    by_cases hn : n = 136
    · subst hn
      rcases Nat.lt_or_ge k s.cfg.maxBlocks with h | h
      · exact .inl ⟨_, .absorb h⟩
      · exact .inr ⟨_, .absorbSlot h⟩
    · exact .inr ⟨_, .absorbLength hn⟩
  | squeeze => exact .inl ⟨_, .squeeze⟩
  | hash len =>
    rcases Nat.lt_or_ge len s.cfg.msgCap with h | h
    · exact .inl ⟨_, .hash h⟩
    · exact .inr ⟨_, .hash h⟩
  | clrerr => exact .inl ⟨_, .clrerr⟩

/-- The inversion lemma of `exec`: a next state is that of a success or of an error. -/
theorem exec_cases {s t : State} {i : Instr} (h : exec i s = .next t) :
    Succeeds s i t ∨ ∃ e, Fails s i e ∧ t = s.raise e (encode i) := by
  rcases succeeds_or_fails s i with ⟨u, hu⟩ | ⟨e, he⟩
  · rw [exec_eq_of_succeeds hu] at h
    injection h with h
    exact .inl (h ▸ hu)
  · rw [exec_eq_of_fails he] at h
    injection h with h
    exact .inr ⟨e, he, h.symm⟩

/-- Every command answers a next state. -/
theorem exec_total (i : Instr) (s : State) : ∃ t, exec i s = .next t := by
  rcases succeeds_or_fails s i with ⟨u, hu⟩ | ⟨e, he⟩
  · exact ⟨_, exec_eq_of_succeeds hu⟩
  · exact ⟨_, exec_eq_of_fails he⟩

/-- A command changes neither the parameter, nor the draw, nor the port. -/
theorem exec_frame {s t : State} {i : Instr} (h : exec i s = .next t) :
    t.cfg = s.cfg ∧ t.draw = s.draw ∧ t.port = s.port ∧ t.response = s.response := by
  rcases exec_cases h with h | ⟨e, -, rfl⟩
  · cases h <;> simp
  · simp

end Sys2Proof.Machine
end

