-- ==== Sys2Proof/Laws/Eval.lean ====
section
/-! SUPPORT. A form of `permute`, and of the sponge loop, that the kernel evaluates quickly, each proved equal to the model's
own: the lanes are plain numbers, each brought to a numeral before it is used again. -/

namespace Sys2Proof.Machine

/-- Hand a number on once it is a numeral. -/
def forceNat {α : Type} : Nat → (Nat → α) → α
  | 0, k => k 0
  | n + 1, k => k (n + 1)

theorem forceNat_eq {α : Type} (n : Nat) (k : Nat → α) : forceNat n k = k n := by cases n <;> rfl

/-- Hand a list of numbers on once each of them is a numeral. -/
def forceNats {α : Type} : List Nat → (List Nat → α) → α
  | [], k => k []
  | n :: ns, k => forceNat n fun m => forceNats ns fun l => k (m :: l)

theorem forceNats_eq {α : Type} (l : List Nat) : ∀ k : List Nat → α, forceNats l k = k l := by
  induction l with
  | nil => intro k; rfl
  | cons n ns ih => intro k; rw [forceNats, forceNat_eq, ih]

/-- The lanes as numbers. -/
def laneNums (S : Lanes) : List Nat := (List.finRange 25).map fun i => S[i].toNat

theorem laneNums_getD (S : Lanes) (i : Fin 25) : (laneNums S).getD i.val 0 = S[i].toNat := by
  simp [laneNums, List.getD_eq_getElem?_getD]

/-- A lane file from its numbers. -/
def lanesOfNums (l : List Nat) : Lanes := Vector.ofFn fun i => BitVec.ofNat 64 (l.getD i.val 0)

theorem lanesOfNums_laneNums (S : Lanes) : lanesOfNums (laneNums S) = S := by
  apply Lanes.ext
  intro i
  have h : (lanesOfNums (laneNums S))[i] = BitVec.ofNat 64 ((laneNums S).getD i.val 0) := by simp [lanesOfNums]
  rw [h, laneNums_getD, BitVec.ofNat_toNat, BitVec.setWidth_eq]

/-- A lane file whose lanes are given by numbers. -/
theorem laneNums_eq_map {T : Lanes} {f : Fin 25 → Nat} (h : ∀ i, T[i].toNat = f i) :
    (List.finRange 25).map f = laneNums T := List.map_congr_left fun i _ => (h i).symm

/-- `rol64` on numbers. -/
def rolNat (v n : Nat) : Nat := if n = 0 then v else ((v <<< n) % 2 ^ 64) ||| (v >>> (64 - n))

theorem rol64_toNat (v : Lane) (n : Nat) : (rol64 v n).toNat = rolNat v.toNat n := by
  unfold rol64 rolNat
  split <;> simp [BitVec.toNat_or]

/-- `C[x]` on numbers. -/
def columnNat (l : List Nat) (x : Fin 5) : Nat :=
  l.getD (laneIndex x 0).val 0 ^^^ l.getD (laneIndex x 1).val 0 ^^^ l.getD (laneIndex x 2).val 0 ^^^
    l.getD (laneIndex x 3).val 0 ^^^ l.getD (laneIndex x 4).val 0

theorem columnNat_laneNums (S : Lanes) (x : Fin 5) : columnNat (laneNums S) x = (thetaC S x).toNat := by
  simp only [columnNat, laneNums_getD, thetaC, BitVec.toNat_xor]

/-- Element `x` of a list over the five columns. -/
theorem finRange5_getD (f : Fin 5 → Nat) (x : Fin 5) : ((List.finRange 5).map f).getD x.val 0 = f x := by
  simp [List.getD_eq_getElem?_getD]

/-- theta on numbers. -/
def thetaNums {α : Type} (l : List Nat) (k : List Nat → α) : α :=
  forceNats ((List.finRange 5).map (columnNat l)) fun C =>
    forceNats ((List.finRange 5).map fun x => C.getD (x + 4).val 0 ^^^ rolNat (C.getD (x + 1).val 0) 1) fun D =>
      forceNats ((List.finRange 25).map fun i => l.getD i.val 0 ^^^ D.getD (laneX i).val 0) k

theorem thetaNums_eq {α : Type} (S : Lanes) (k : List Nat → α) : thetaNums (laneNums S) k = k (laneNums (theta S)) := by
  simp only [thetaNums, forceNats_eq]
  refine congrArg k (laneNums_eq_map ?_)
  intro i
  rw [theta_getElem, laneNums_getD, finRange5_getD, finRange5_getD, finRange5_getD, columnNat_laneNums,
    columnNat_laneNums, BitVec.toNat_xor, thetaD, BitVec.toNat_xor, rol64_toNat]

/-- rho and pi on numbers. -/
def rhoPiNums {α : Type} (l : List Nat) (k : List Nat → α) : α :=
  forceNats ((List.finRange 25).map fun j => rolNat (l.getD (PISRC j).val 0) (RHO (PISRC j)).val) k

theorem rhoPiNums_eq {α : Type} (S : Lanes) (k : List Nat → α) :
    rhoPiNums (laneNums S) k = k (laneNums (pi (rho S))) := by
  rw [rhoPiNums, forceNats_eq]
  refine congrArg k (laneNums_eq_map ?_)
  intro j
  rw [pi_getElem, rho_getElem, rol64_toNat, laneNums_getD]

/-- chi and iota on numbers. -/
def chiIotaNums {α : Type} (l : List Nat) (r : Fin 24) (k : List Nat → α) : α :=
  forceNats ((List.finRange 25).map fun i =>
    (l.getD i.val 0 ^^^ ((2 ^ 64 - 1 - l.getD (laneIndex (laneX i + 1) (laneY i)).val 0) &&&
      l.getD (laneIndex (laneX i + 2) (laneY i)).val 0)) ^^^ (if i = 0 then (RC r).toNat else 0)) k

theorem chiIotaNums_eq {α : Type} (S : Lanes) (r : Fin 24) (k : List Nat → α) :
    chiIotaNums (laneNums S) r k = k (laneNums (iota (chi S) r)) := by
  rw [chiIotaNums, forceNats_eq]
  refine congrArg k (laneNums_eq_map ?_)
  intro i
  have hc : (chi S)[i].toNat = S[i].toNat ^^^ ((2 ^ 64 - 1 - S[laneIndex (laneX i + 1) (laneY i)].toNat) &&&
      S[laneIndex (laneX i + 2) (laneY i)].toNat) := by
    rw [chi_getElem, BitVec.toNat_xor, BitVec.toNat_and, BitVec.toNat_not]
  rw [iota_getElem, laneNums_getD, laneNums_getD, laneNums_getD, ← hc]
  by_cases h : i = 0
  · subst h
    rw [if_pos rfl, if_pos rfl, BitVec.toNat_xor]
    rfl
  · rw [if_neg h, if_neg h, Nat.xor_zero]

/-- Rounds on numbers. -/
def roundsNums : List (Fin 24) → List Nat → List Nat
  | [], l => l
  | r :: rs, l => thetaNums l fun l => rhoPiNums l fun l => chiIotaNums l r (roundsNums rs)

theorem roundsNums_eq (rs : List (Fin 24)) : ∀ S : Lanes,
    roundsNums rs (laneNums S) = laneNums (rs.foldl keccakRound S) := by
  induction rs with
  | nil => intro S; rfl
  | cons r rs ih =>
    intro S
    rw [roundsNums, thetaNums_eq, rhoPiNums_eq, chiIotaNums_eq, ih, List.foldl_cons, keccakRound]

/-- `permute` through numbers. -/
def permuteFast (S : Lanes) : Lanes := forceNats (laneNums S) fun l => lanesOfNums (roundsNums (List.finRange 24) l)

theorem permute_eq_fast (S : Lanes) : permute S = permuteFast S := by
  rw [permuteFast, forceNats_eq, roundsNums_eq, lanesOfNums_laneNums, permute]

/-- The sponge loop over a list of blocks, through numbers. -/
def spongeFast : List (List Byte) → Lanes → Lanes
  | [], S => S
  | b :: bs, S => spongeFast bs (permuteFast (xorBlock S b))

theorem spongeFast_eq (bs : List (List Byte)) : ∀ S : Lanes, spongeFast bs S = bs.foldl absorbPermute S := by
  induction bs with
  | nil => intro S; rfl
  | cons b bs ih => intro S; rw [spongeFast, ih, List.foldl_cons, absorbPermute, permute_eq_fast]

theorem spongeLoop_eq_fast (S : Lanes) (block : Nat → List Byte) (n : Nat) :
    spongeLoop S block n = spongeFast ((List.range n).map block) S := by
  rw [spongeFast_eq, List.foldl_map, spongeLoop]

end Sys2Proof.Machine
end

