-- ==== Sys2Proof/Laws/PerInstr.lean ====
section
/-! SUPPORT. Family `OpField`: the word of every instruction carries the opcode of its row (30_encoding.md R61, R63). -/

namespace Sys2Proof.Laws.OpField

/-- The opcode of the row of 30_encoding.md R63 that a command belongs to. -/
def rowOp : Instr → Nat
  | .init => 0x01
  | .permute => 0x02
  | .pad _ => 0x03
  | .absorb _ _ => 0x04
  | .squeeze => 0x05
  | .hash _ => 0x06
  | .clrerr => 0x07

/-- Bits 31:24 of an instruction's word are its row's opcode. -/
def Statement (i : Instr) : Prop := (encode i).toNat / 2 ^ 24 = rowOp i

theorem init : Statement .init := by
  unfold Statement
  decide

theorem permute : Statement .permute := by
  unfold Statement
  decide

theorem pad (len : Nat) : Statement (.pad len) := by
  unfold Statement
  rw [encode, ← opField_toNat, (wordL_fields 0x03 len).1]
  rfl

theorem absorb (k n : Nat) : Statement (.absorb k n) := by
  unfold Statement
  rw [encode, ← opField_toNat, (wordB_fields 0x04 n k).1]
  rfl

theorem squeeze : Statement .squeeze := by
  unfold Statement
  decide

theorem hash (len : Nat) : Statement (.hash len) := by
  unfold Statement
  rw [encode, ← opField_toNat, (wordL_fields 0x06 len).1]
  rfl

theorem clrerr : Statement .clrerr := by
  unfold Statement
  decide

end Sys2Proof.Laws.OpField
end

