-- ==== Sys2Proof/Laws/Port.lean ====
section
/-! SUPPORT. The address map region by region, and what a step can do, said once. -/

namespace Sys2Proof.Machine

/-! ### The address map (20_memory.md R41) -/

/-- Every offset that addresses an element, with the element. -/
theorem locate_cases {c : Config} {off : Nat} {e : Element} (h : locate c off = some e) :
    (∃ i : Fin 25, off = 8 * i.val ∧ e = .lane i) ∨ (off = 0x100 ∧ e = .cmd) ∨ (∃ r, off = CtlReg.offset r ∧ e = .reg r) ∨
    (∃ b : Fin 32, off = 0x120 + b.val ∧ e = .digest b) ∨
    (∃ a, off = 0x1000 + a ∧ a < c.msgCap ∧ e = .msg a) := by
  rw [locate] at h
  by_cases h0 : off < 8 * 25
  · rw [dif_pos h0] at h
    by_cases h1 : off % 8 = 0
    · rw [if_pos h1] at h
      exact .inl ⟨⟨off / 8, by omega⟩, by simp only; omega, (Option.some.inj h).symm⟩
    · rw [if_neg h1] at h; cases h
  rw [dif_neg h0] at h
  by_cases h1 : off = cmdOffset
  · rw [if_pos h1] at h; exact .inr (.inl ⟨h1, (Option.some.inj h).symm⟩)
  rw [if_neg h1] at h
  by_cases h2 : off = CtlReg.status.offset
  · rw [if_pos h2] at h; exact .inr (.inr (.inl ⟨.status, h2, (Option.some.inj h).symm⟩))
  rw [if_neg h2] at h
  by_cases h3 : off = CtlReg.mlen.offset
  · rw [if_pos h3] at h; exact .inr (.inr (.inl ⟨.mlen, h3, (Option.some.inj h).symm⟩))
  rw [if_neg h3] at h
  by_cases h4 : off = CtlReg.plen.offset
  · rw [if_pos h4] at h; exact .inr (.inr (.inl ⟨.plen, h4, (Option.some.inj h).symm⟩))
  rw [if_neg h4] at h
  by_cases h5 : off = CtlReg.errinfo.offset
  · rw [if_pos h5] at h; exact .inr (.inr (.inl ⟨.errinfo, h5, (Option.some.inj h).symm⟩))
  rw [if_neg h5] at h
  by_cases h6 : digestBase ≤ off ∧ off - digestBase < 32
  · rw [dif_pos h6] at h
    exact .inr (.inr (.inr (.inl ⟨⟨off - digestBase, h6.2⟩, (Nat.add_sub_cancel' h6.1).symm, (Option.some.inj h).symm⟩)))
  rw [dif_neg h6] at h
  by_cases h7 : msgBase ≤ off ∧ off - msgBase < c.msgCap
  · rw [if_pos h7] at h
    exact .inr (.inr (.inr (.inr ⟨off - msgBase, (Nat.add_sub_cancel' h7.1).symm, h7.2, (Option.some.inj h).symm⟩)))
  · rw [if_neg h7] at h; cases h

theorem locate_lane (c : Config) (i : Fin 25) : locate c (8 * i.val) = some (.lane i) := by
  have hi := i.isLt
  rw [locate, dif_pos (by omega), if_pos (by omega)]
  exact congrArg (fun j => some (Element.lane j)) (Fin.ext (by simp only; omega))

theorem locate_cmd (c : Config) : locate c 0x100 = some .cmd := by
  simp [locate, cmdOffset]

theorem locate_reg (c : Config) (r : CtlReg) : locate c r.offset = some (.reg r) := by
  cases r <;> simp [locate, cmdOffset, CtlReg.offset]

theorem locate_digest (c : Config) (b : Fin 32) : locate c (0x120 + b.val) = some (.digest b) := by
  have hb := b.isLt
  have hr : ∀ r, 0x120 + b.val ≠ CtlReg.offset r := by intro r; cases r <;> simp only [CtlReg.offset] <;> omega
  have hd : digestBase ≤ 0x120 + b.val ∧ 0x120 + b.val - digestBase < 32 := by simp only [digestBase]; omega
  rw [locate, dif_neg (by omega), if_neg (by simp only [cmdOffset]; omega), if_neg (hr _), if_neg (hr _), if_neg (hr _),
    if_neg (hr _), dif_pos hd]
  exact congrArg (fun j => some (Element.digest j)) (Fin.ext (by simp [digestBase]))

theorem locate_msg {c : Config} {a : Nat} (h : a < c.msgCap) : locate c (0x1000 + a) = some (.msg a) := by
  have hr : ∀ r, 0x1000 + a ≠ CtlReg.offset r := by intro r; cases r <;> simp only [CtlReg.offset] <;> omega
  have hm : 0x1000 + a - msgBase = a := by simp [msgBase]
  rw [locate, dif_neg (by omega), if_neg (by simp only [cmdOffset]; omega), if_neg (hr _), if_neg (hr _), if_neg (hr _),
    if_neg (hr _), dif_neg (by simp only [digestBase]; omega), if_pos ⟨Nat.le_add_right _ _, by rw [hm]; exact h⟩, hm]

/-! ### The step -/

theorem step_idle {s : State} (h : s.port = []) : step s = .next s := by
  rw [step, h]

theorem step_serve {s : State} {e : HostEvent} {rest : List HostEvent} (h : s.port = e :: rest) :
    step s = ({ s with port := rest } : State).serve e := by
  rw [step, h]

/-- Command issue answers a next state, in one of three ways. -/
theorem issue_cases (s : State) (w : Word) : ∃ t, s.issue w = .next (t.respond .ok) ∧
    ((∃ i, decode w = .command i ∧ Succeeds s i t) ∨
     (∃ i e, decode w = .command i ∧ Fails s i e ∧ t = s.raise e (encode i)) ∨
     (decode w = .illegal w ∧ t = s.raise .illegalCommand w)) := by
  unfold State.issue
  cases hd : decode w with
  | command i =>
    obtain ⟨t, ht⟩ := exec_total i s
    refine ⟨t, by simp only [ht, respondOk], ?_⟩
    rcases exec_cases ht with h | ⟨e, he, h⟩
    · exact .inl ⟨i, rfl, h⟩
    · exact .inr (.inl ⟨i, e, rfl, he, h⟩)
  | illegal v =>
    have hv : v = w := by
      unfold decode at hd
      repeat' split at hd
      all_goals first | (injection hd with hd; exact hd.symm) | cases hd
    subst hv
    exact ⟨_, rfl, .inr (.inr ⟨rfl, rfl⟩)⟩

/-- The writes of a lane, of a command word and of a buffer byte, and every other write. -/
theorem hostWrite_cases (s : State) (off : BitVec 24) (v : Data) :
    (∃ w, off.toNat = 0x100 ∧ v = .b4 w ∧ s.hostWrite off v = s.issue w) ∨
    (∃ (i : Fin 25) (u : Lane), off.toNat = 8 * i.val ∧ v = .b8 u ∧
      s.hostWrite off v = .next ((s.setLane i u).respond .ok)) ∨
    (∃ (a : Nat) (u : Byte), off.toNat = 0x1000 + a ∧ a < s.cfg.msgCap ∧ v = .b1 u ∧
      s.hostWrite off v = .next ((s.setByte a u).respond .ok)) ∨
    s.hostWrite off v = .next (s.respond .busError) := by
  unfold State.hostWrite
  cases hl : locate s.cfg off.toNat with
  | none => exact .inr (.inr (.inr rfl))
  | some e =>
    rcases locate_cases hl with ⟨i, ho, rfl⟩ | ⟨ho, rfl⟩ | ⟨r, ho, rfl⟩ | ⟨b, ho, rfl⟩ | ⟨a, ho, ha, rfl⟩ <;> cases v
    case inl.b8 v => exact .inr (.inl ⟨i, v, ho, rfl, rfl⟩)
    case inr.inl.b4 v => exact .inl ⟨v, ho, rfl, rfl⟩
    case inr.inr.inr.inr.b1 v => exact .inr (.inr (.inl ⟨a, v, ho, ha, rfl, rfl⟩))
    all_goals exact .inr (.inr (.inr rfl))

/-- What is left at the port once the oldest event is taken. -/
def State.take (s : State) (rest : List HostEvent) : State := { s with port := rest }

@[simp] theorem State.take_lanes (s : State) (rest : List HostEvent) : (s.take rest).lanes = s.lanes := rfl
@[simp] theorem State.take_msg (s : State) (rest : List HostEvent) : (s.take rest).msg = s.msg := rfl
@[simp] theorem State.take_mlen (s : State) (rest : List HostEvent) : (s.take rest).mlen = s.mlen := rfl
@[simp] theorem State.take_plen (s : State) (rest : List HostEvent) : (s.take rest).plen = s.plen := rfl
@[simp] theorem State.take_digest (s : State) (rest : List HostEvent) : (s.take rest).digest = s.digest := rfl
@[simp] theorem State.take_status (s : State) (rest : List HostEvent) : (s.take rest).status = s.status := rfl
@[simp] theorem State.take_errinfo (s : State) (rest : List HostEvent) : (s.take rest).errinfo = s.errinfo := rfl
@[simp] theorem State.take_cfg (s : State) (rest : List HostEvent) : (s.take rest).cfg = s.cfg := rfl
@[simp] theorem State.take_draw (s : State) (rest : List HostEvent) : (s.take rest).draw = s.draw := rfl
@[simp] theorem State.take_response (s : State) (rest : List HostEvent) : (s.take rest).response = s.response := rfl
@[simp] theorem State.take_port (s : State) (rest : List HostEvent) : (s.take rest).port = rest := rfl
@[simp] theorem State.take_msgByte (s : State) (rest : List HostEvent) (a : Nat) :
    (s.take rest).msgByte a = s.msgByte a := rfl

/-- Everything a step can do, and when. -/
inductive Steps (s : State) : State → Prop where
  | idle (h : s.port = []) : Steps s s
  | reset {rest : List HostEvent} (h : s.port = .reset :: rest) : Steps s (s.take rest).applyReset
  | read {rest : List HostEvent} {off : BitVec 24} {size : AccessSize} (h : s.port = .read off size :: rest) :
    Steps s ((s.take rest).respond ((s.take rest).hostRead off size))
  | denied {rest : List HostEvent} {off : BitVec 24} {v : Data} (h : s.port = .write off v :: rest) :
    Steps s ((s.take rest).respond .busError)
  | succeeds {rest : List HostEvent} {off : BitVec 24} {w : Word} {i : Instr} {t : State}
    (h : s.port = .write off (.b4 w) :: rest) (ho : off.toNat = 0x100) (hd : decode w = .command i)
    (ht : Succeeds (s.take rest) i t) : Steps s (t.respond .ok)
  | fails {rest : List HostEvent} {off : BitVec 24} {w : Word} {i : Instr} {e : CmdError}
    (h : s.port = .write off (.b4 w) :: rest) (ho : off.toNat = 0x100) (hd : decode w = .command i)
    (he : Fails (s.take rest) i e) : Steps s (((s.take rest).raise e (encode i)).respond .ok)
  | illegal {rest : List HostEvent} {off : BitVec 24} {w : Word} (h : s.port = .write off (.b4 w) :: rest)
    (ho : off.toNat = 0x100) (hd : decode w = .illegal w) :
    Steps s (((s.take rest).raise .illegalCommand w).respond .ok)
  | lane {rest : List HostEvent} {off : BitVec 24} {i : Fin 25} {u : Lane} (h : s.port = .write off (.b8 u) :: rest)
    (ho : off.toNat = 8 * i.val) : Steps s (((s.take rest).setLane i u).respond .ok)
  | byte {rest : List HostEvent} {off : BitVec 24} {a : Nat} {u : Byte} (h : s.port = .write off (.b1 u) :: rest)
    (ho : off.toNat = 0x1000 + a) (ha : a < s.cfg.msgCap) : Steps s (((s.take rest).setByte a u).respond .ok)

/-- The inversion lemma of `step`. -/
theorem step_cases {s t : State} (h : step s = .next t) : Steps s t := by
  cases hp : s.port with
  | nil =>
    rw [step_idle hp] at h
    injection h with h
    exact h ▸ .idle hp
  | cons e rest =>
    rw [step_serve hp] at h
    cases e with
    | read off size =>
      injection h with h
      exact h ▸ .read hp
    | reset =>
      injection h with h
      exact h ▸ .reset hp
    | write off v =>
      rw [State.serve] at h
      rcases hostWrite_cases { s with port := rest } off v with
        ⟨w, ho, rfl, hw⟩ | ⟨i, u, ho, rfl, hw⟩ | ⟨a, u, ho, ha, rfl, hw⟩ | hw
      · rw [hw] at h
        obtain ⟨u, hu, hc⟩ := issue_cases { s with port := rest } w
        rw [hu] at h
        injection h with h
        subst h
        rcases hc with ⟨i, hd, hs⟩ | ⟨i, e, hd, he, rfl⟩ | ⟨hd, rfl⟩
        · exact .succeeds hp ho hd hs
        · exact .fails hp ho hd he
        · exact .illegal hp ho hd
      · rw [hw] at h
        injection h with h
        exact h ▸ .lane hp ho
      · rw [hw] at h
        injection h with h
        exact h ▸ .byte hp ho ha
      · rw [hw] at h
        injection h with h
        exact h ▸ .denied hp

end Sys2Proof.Machine
end

