-- ==== Sys2Proof/Tests/Slice0.lean ====
section
/-! SUPPORT. The model's own tests, one step each, with the values of spec/95_test_vectors.md (V<n>), and a witness for the
hypotheses of every statement that has some. -/

namespace Sys2Proof.Tests

open Sys2Proof.Machine Sys2Proof.Claims

set_option Elab.async false

/-- The state after one event. -/
def after (s : State) (e : HostEvent) : Option State :=
  match step { s with port := [e] } with
  | .next t => some t
  | .fault _ => none
  | .refused _ => none

/-- The response to one event. -/
def answer (s : State) (e : HostEvent) : Option Response := (after s e).bind State.response

/-- `S0` of 95_test_vectors.md: lane `i` holds `i + 1`. -/
def s0 : Lanes := Vector.ofFn fun i => BitVec.ofNat 64 (i.val + 1)

/-- Lanes given by the low byte of each. -/
def lowBytes (l : List Nat) : Lanes := Vector.ofFn fun i => BitVec.ofNat 64 (l.getD i.val 0)

/-- The bytes `0, 1, .., n-1`. -/
def count (n : Nat) : List Byte := (List.range n).map (BitVec.ofNat 8)

/-- Reset, with the bytes `00 01 .. 87` in slot 0. -/
def loaded : State := State.reset.memWrite 0 (count 136)

/-- Reset, with 0xFF at the bytes around the padding of a 200-byte message, and inside it. -/
def dirty : State := ((State.reset.memWrite 199 [0xFF, 0xFF, 0xFF]).memWrite 270 [0xFF, 0xFF, 0xFF])

/-- `S0` in the lanes and a full error record. -/
def failed : State :=
  { State.reset with
    lanes := s0
    status := { err := some .illegalCommand, sticky := { ibs := true, ill := true, len := true, blk := true } }
    errinfo := 0x01000001 }

/-! ### WellFormed: an ill-formed term for each check -/

theorem test_pad_operand_too_wide : (Instr.pad (2 ^ 24)).wf = false := by decide
theorem test_hash_operand_too_wide : (Instr.hash (2 ^ 24)).wf = false := by decide
theorem test_absorb_block_index_too_wide : (Instr.absorb 65536 136).wf = false := by decide
theorem test_absorb_length_too_wide : (Instr.absorb 0 256).wf = false := by decide
theorem test_widest_operands_are_well_formed :
    (Instr.pad 16777215).wf ∧ (Instr.hash 16777215).wf ∧ (Instr.absorb 65535 255).wf := by decide

/-! ### Decode: words written out from 30_encoding.md R61, R63; V60, V61 -/

theorem test_decode_init : decode 0b00000001_00000000_00000000_00000000 = .command .init := by decide
theorem test_decode_permute : decode 0b00000010_00000000_00000000_00000000 = .command .permute := by decide
theorem test_decode_pad : decode 0b00000011_00000000_00010000_11111111 = .command (.pad 4351) := by decide
theorem test_decode_absorb : decode 0b00000100_10001000_00000000_00011111 = .command (.absorb 31 136) := by decide
theorem test_decode_squeeze : decode 0b00000101_00000000_00000000_00000000 = .command .squeeze := by decide
theorem test_decode_hash : decode 0b00000110_00000000_00000001_00101100 = .command (.hash 300) := by decide
theorem test_decode_clrerr : decode 0b00000111_00000000_00000000_00000000 = .command .clrerr := by decide
theorem test_decode_widest_fields :
    decode 0x03FFFFFF = .command (.pad 16777215) ∧ decode 0x04FFFFFF = .command (.absorb 65535 255) := by decide
theorem test_decode_illegal : [0x00000000, 0x00FFFFFF, 0x01000001, 0x02800000, 0x05000100, 0x07FFFFFF, 0x08000000,
    0x80000000, (0xFFFFFFFF : Word)].all (fun w => decide (decode w = .illegal w)) = true := by decide +kernel
theorem test_encode : encode (.pad 200) = 0x030000C8 ∧ encode (.absorb 0 135) = 0x04870000 ∧
    encode (.hash 300) = 0x0600012C := by decide
theorem test_table_word : decodeTableWord 32 0x04880001 = some (.absorb 1 136) ∧ decodeTableWord 32 0x01000001 = none := by
  decide

/-! ### Lanes and bytes: V1, V2 -/

theorem test_rotate : rol64 0x8000000000000000 1 = 1 ∧ rol64 0x0123456789ABCDEF 63 = 0x8091A2B3C4D5E6F7 ∧
    rol64 0x0123456789ABCDEF 0 = 0x0123456789ABCDEF := by decide
theorem test_bytes : le64 [0, 1, 2, 3, 4, 5, 6, 7] = 0x0706050403020100 ∧
    bytesLe 0x0123456789ABCDEF = [0xEF, 0xCD, 0xAB, 0x89, 0x67, 0x45, 0x23, 0x01] ∧
    bswap64 0x0123456789ABCDEF = 0xEFCDAB8967452301 := by decide

/-! ### Permutation: V3 to V10 -/

theorem test_round_constant_checksum : ((List.finRange 24).map RC).foldl (· ^^^ ·) 0 = 0x800000000000800A ∧
    ((List.finRange 25).map fun i => (RHO i).val).sum = 680 := by decide +kernel
theorem test_round_constants : RC 1 = 0x8082 ∧ RC 12 = 0x000000008000808B ∧ RC 19 = 0x800000008000000A ∧
    RC 23 = 0x8000000080008008 := by decide +kernel
theorem test_theta : theta s0 = lowBytes [0x10, 0x0D, 0x1D, 0x1D, 0x1F, 0x17, 0x08, 0x16, 0x10, 0x10, 0x1A, 0x03, 0x13,
    0x17, 0x15, 0x01, 0x1E, 0x0C, 0x0A, 0x0E, 0x04, 0x19, 0x09, 0x01, 0x03] := by decide +kernel
theorem test_theta_wraps : (theta (Lanes.zero.set 1 0x8000000000000000))[20] = 1 := by decide +kernel
theorem test_rho : (rho s0)[22] = 0xE000000000000002 ∧ (rho s0)[8] = 0x0480000000000000 ∧ (rho s0)[24] = 0x64000 := by
  decide +kernel
theorem test_pi : pi s0 = lowBytes [0x01, 0x07, 0x0D, 0x13, 0x19, 0x04, 0x0A, 0x0B, 0x11, 0x17, 0x02, 0x08, 0x0E, 0x14,
    0x15, 0x05, 0x06, 0x0C, 0x12, 0x18, 0x03, 0x09, 0x0F, 0x10, 0x16] := by decide +kernel
theorem test_chi : chi s0 = lowBytes [0x00, 0x06, 0x02, 0x04, 0x07, 0x0E, 0x06, 0x0A, 0x0D, 0x0B, 0x0A, 0x0E, 0x0C, 0x0E,
    0x0B, 0x12, 0x10, 0x16, 0x13, 0x15, 0x14, 0x1E, 0x16, 0x1C, 0x1B] := by decide +kernel
theorem test_iota : iota s0 1 = s0.set 0 0x8083 ∧ iota Lanes.zero 23 = Lanes.zero.set 0 0x8000000080008008 := by
  decide +kernel
theorem test_round : (keccakRound s0 0)[0] = 0x0000180000000011 ∧ (keccakRound s0 0)[24] = 0x0800000000000064 := by
  decide +kernel

/-- The rows of a lane table as 95_test_vectors.md prints them: five lanes of 16 hex digits each, read as one number. -/
def printedRow (S : Lanes) (y : Fin 5) : Nat :=
  (List.finRange 5).foldl (fun acc x => 2 ^ 64 * acc + S[laneIndex x y].toNat) 0

/-- V10: the permutation of the zero state. -/
theorem test_permute_zero : (List.finRange 5).map (printedRow (permute Lanes.zero)) = [
    0xF1258F7940E1DDE784D5CCF933C0478AD598261EA65AA9EEBD1547306F80494D8B284E056253D057,
    0xFF97A42D7F8E6FD490FEE5A0A44647C48C5BDA0CD6192E76AD30A6F71B19059C30935AB7D08FFC64,
    0xEB5AA93F2317D635A9A6E6260D71210381A57C16DBCF555F43B831CD0347C82601F22F1A11A5569F,
    0x05E5635A21D9AE6164BEFEF28CC970F2613670957BC46611B87C5A554FD00ECB8C3EE88A1CCF32C8,
    0x940C7922AE3A26141841F924A2C509E416F53526E70465C275F644E97F30A13BEAF1FF7B5CECA249] := by
  rw [permute_eq_fast]
  decide +kernel

/-- The digest of V40, from the number its 64 hex digits print. -/
def emptyDigest : Digest := Vector.ofFn fun b =>
  BitVec.ofNat 8 (0xC5D2460186F7233C927E7DB2DCC703C0E500B653CA82273B7BFAD8045D85A470 / 2 ^ (8 * (31 - b.val)))

/-- V40: the hash of the empty message. -/
theorem test_hash_empty : hashMessage [] = emptyDigest := by
  rw [hashMessage, spongeLoop_eq_fast]
  decide +kernel

/-! ### The commands, each run from the port -/

/-- V35. -/
theorem test_init : (after failed (cmdw 0x01000000)).map (fun t => (t.lanes, t.status.word, t.errinfo)) =
    some (Lanes.zero, 0x000000F0, 0x01000001) := by decide +kernel
/-- V15: the word with a non-zero operand field leaves the lanes alone. -/
theorem test_permute_operand_field : (after { State.reset with lanes := s0 } (cmdw 0x02000001)).map
    (fun t => (t.lanes, t.status.word, t.errinfo)) = some (s0, 0x00000022, 0x02000001) := by decide +kernel
/-- P4: a success leaves the sticky bits and `ERRINFO`. -/
theorem test_permute_keeps_record : (after failed (cmdw 0x02000000)).map
    (fun t => (t.status.word, t.errinfo, t.digest, t.mlen)) = some (0x000000F0, 0x01000001, State.reset.digest, 0) := by
  decide +kernel
/-- V26. -/
theorem test_pad : (after dirty (cmdw 0x030000C8)).map
    (fun t => (t.memRead 199 3, t.memRead 270 3, t.readReg .mlen, t.readReg .plen)) =
    some ([0xFF, 0x01, 0x00], [0x00, 0x80, 0xFF], 200, 272) := by decide +kernel
/-- V27: the longest message that fits, and the first that does not. -/
theorem test_pad_limits : (after State.reset (cmdw 0x030010FF)).map (fun t => (t.memRead 4351 1, t.readReg .plen)) =
      some ([0x81], 4352) ∧
    (after State.reset (cmdw 0x03001100)).map (fun t => (t.status.word, t.errinfo, t.msg, t.readReg .plen)) =
      some (0x00000043, 0x03001100, [], 0) := by decide +kernel
/-- V31: an XOR, the capacity untouched. -/
theorem test_absorb : (after { loaded with lanes := s0 } (cmdw 0x04880000)).map
    (fun t => (t.lanes[0], t.lanes[8], t.lanes[16], t.lanes[17], t.lanes[24])) =
    some (0x0706050403020101, 0x4746454443424149, 0x8786858483828191, 0x12, 0x19) := by decide +kernel
/-- V72, V73: the two errors, and the one that wins. -/
theorem test_absorb_errors :
    (after failed (cmdw 0x04870000)).map (fun t => (t.status.word, t.errinfo, t.lanes)) =
      some (0x000000F1, 0x04870000, s0) ∧
    (after State.reset (cmdw 0x04880020)).map (fun t => (t.status.word, t.errinfo)) = some (0x00000084, 0x04880020) ∧
    (after State.reset (cmdw 0x0487FFFF)).map (fun t => (t.status.word, t.errinfo)) = some (0x00000011, 0x0487FFFF) := by
  decide +kernel
/-- V34: the bytes of lane 0, and the lanes zeroed. -/
theorem test_squeeze : (after { State.reset with lanes := Lanes.zero.set 0 0x0123456789ABCDEF } (cmdw 0x05000000)).map
    (fun t => (t.digest.toList.take 9, t.lanes)) =
    some ([0xEF, 0xCD, 0xAB, 0x89, 0x67, 0x45, 0x23, 0x01, 0x00], Lanes.zero) := by decide +kernel
/-- V45: an error of `HASH` changes nothing but the record. -/
theorem test_hash_too_long : (after { loaded with lanes := s0 } (cmdw 0x06001100)).map
    (fun t => (t.status.word, t.errinfo, t.lanes, t.readReg .plen)) = some (0x00000043, 0x06001100, s0, 0) := by
  decide +kernel
/-- V45: what `HASH 0` leaves besides the digest. -/
theorem test_hash_leaves : (after { dirty with lanes := s0 } (cmdw 0x06000000)).map
    (fun t => (t.lanes, t.memRead 0 2, t.memRead 135 1, t.readReg .plen, t.memRead 199 1)) =
    some (Lanes.zero, [0x01, 0x00], [0x80], 136, [0xFF]) := by decide +kernel
/-- P4. -/
theorem test_clrerr : (after failed (cmdw 0x07000000)).map (fun t => (t.status.word, t.errinfo, t.lanes)) =
    some (0, 0, s0) := by decide +kernel
/-- V70: not a `CLRERR`. -/
theorem test_clrerr_operand_field : (after State.reset (cmdw 0x07000001)).map (fun t => (t.status.word, t.errinfo)) =
    some (0x00000022, 0x07000001) := by decide +kernel

/-! ### The host port: R151 to R157, V75, V90 -/

theorem test_write_and_read_byte : (after State.reset (wrb 4351 0x61)).bind (fun t => answer t (rdb 4351)) =
    some (.data (.b1 0x61)) := by decide +kernel
/-- R151: a line past the last offset gets `BusError` too, and writes nothing (log entry 14). -/
theorem test_write_byte_past_every_offset : (after failed (wrb (2 ^ 24) 0x61)) =
    some { failed with response := some .busError } := by decide +kernel
theorem test_write_and_read_lane : (after State.reset (wrl 24 0x8000000000000000)).bind (fun t => answer t (rdl 24)) =
    some (.data (.b8 0x8000000000000000)) := by decide +kernel
theorem test_read_digest : answer { State.reset with digest := emptyDigest } (rdd 31) = some (.data (.b1 0x70)) := by
  decide +kernel
theorem test_read_status : answer failed (rdr .status) = some (.data (.b4 0x000000F2)) := by decide +kernel
theorem test_bus_errors : ∀ e ∈ [HostEvent.read 0x000100 .four, .write 0x000104 (.b4 0), .write 0x000120 (.b1 0),
    .read 0x000000 .four, .read 0x000004 .eight, .read 0x0000C8 .eight, .write 0x000100 (.b1 1), .write 0x000100 (.b8 1),
    .read 0x001000 .four, .read 0x002100 .one],
    after failed e = some { failed with response := some .busError } := by decide +kernel
theorem test_reset_event : (after { failed with mlen := 200, plen := 272, digest := emptyDigest } .reset).map
    (fun t => (t.lanes, t.status.word, t.errinfo, t.digest, t.mlen)) =
    some (Lanes.zero, 0, 0, State.reset.digest, 0) := by decide +kernel

/-- The host's fetch word is run by the very next step (log entry 12). -/
theorem test_fetch_word : (match step (State.reset.withFetchWord 32 0x04870000) with
    | .next t => some t.errinfo
    | .fault _ => none
    | .refused _ => none) = some 0x04870000 := by decide +kernel

/-! ### Witnesses: for each statement with hypotheses, values that meet all of them, at the ends of their ranges -/

/-- Parameter `MAX_BLOCKS = 32`: the buffer ends at 4352, the slots at 32. -/
theorem reset_msgCap : State.reset.cfg.msgCap = 4352 ∧ State.reset.cfg.maxBlocks = 32 := by decide

theorem witness_DecodeAndEncodeAgree : (Instr.absorb 65535 255).wf = true ∧ (Instr.pad 16777215).wf = true ∧
    decode 0x04FFFFFF = .command (.absorb 65535 255) := by decide

theorem witness_DecodeAndEncodeFollowTheirRule : 16777215 < 2 ^ 24 ∧ 65535 < 65536 ∧ 255 < 256 ∧
    Instr.hash 16777215 ∈ [Instr.init, .permute, .pad 16777215, .absorb 65535 255, .squeeze, .hash 16777215, .clrerr] := by
  decide

theorem witness_IllegalWordsAreTheReservedEncodings : decode 0x00FFFFFF = .illegal 0x00FFFFFF ∧
    decode 0x08000000 = .illegal 0x08000000 ∧ decode 0x07000001 = .illegal 0x07000001 := by decide

theorem witness_RotateLeftMovesEachBit : 1 ≤ 63 ∧ 63 ≤ 63 ∧ 63 < 64 ∧
    rol64 0x8000000000000000 63 = 0x4000000000000000 := by decide

theorem witness_BytesAndLanesConvertLittleEndian : 7 < 8 ∧ (bytesLe 0x0123456789ABCDEF)[7]? = some 0x01 := by decide

theorem witness_DestinationsAreABijectionWithOneFixedPoint : (24 : Fin 25) ≠ 0 ∧ (1 : Fin 25) ≠ 0 ∧ 23 < 24 := by decide

/-- Columns and their differences exist for every lane file. -/
theorem witness_ThetaFollowsItsRule : ∃ (S : Lanes) (C D : Fin 5 → Lane),
    (∀ x : Fin 5, C x = S[x.val] ^^^ S[x.val + 5] ^^^ S[x.val + 10] ^^^ S[x.val + 15] ^^^ S[x.val + 20]) ∧
    (∀ x y z : Fin 5, y.val = (x.val + 4) % 5 → z.val = (x.val + 1) % 5 → D x = C y ^^^ rol64 (C z) 1) ∧
    (4 : Fin 5).val = (24 : Fin 25).val % 5 :=
  ⟨s0, fun x => s0[x.val] ^^^ s0[x.val + 5] ^^^ s0[x.val + 10] ^^^ s0[x.val + 15] ^^^ s0[x.val + 20],
    fun x => thetaD s0 x, fun _ => rfl, by decide +kernel, rfl⟩

theorem witness_ChiFollowsItsRule : (4 : Fin 5).val = ((3 : Fin 5).val + 1) % 5 ∧
    (0 : Fin 5).val = ((3 : Fin 5).val + 2) % 5 := by decide

theorem witness_IotaChangesLaneZeroOnly : (24 : Fin 25) ≠ 0 ∧ (23 : Fin 24).val < 24 := by decide

/-- A sequence of states, each one round after the one before. -/
theorem witness_PermuteIsTwentyFourRoundsInOrder : ∃ T : Nat → Lanes, T 0 = s0 ∧
    ∀ r : Fin 24, T (r.val + 1) = keccakRound (T r.val) r := by
  refine ⟨fun n => ((List.finRange 24).take n).foldl keccakRound s0, rfl, ?_⟩
  intro r
  have hr : r.val < (List.finRange 24).length := by simp
  simp only
  rw [← List.take_concat_get' _ _ hr, List.foldl_append]
  simp

theorem witness_PaddingFollowsItsRule : ∃ M : List Byte, M.length = 1 ∧ 0 < M.length ∧ M.length ≤ 1 ∧
    1 < M.length + (136 - M.length % 136) ∧ 135 < M.length + (136 - M.length % 136) := ⟨[0x61], by decide⟩

theorem witness_PaddingMarksCommute : (zeros 135).length % 136 = 135 ∧ (zeros 271).length % 136 = 135 := by
  decide +kernel

theorem witness_OnlyTheLastBlockIsPadded : ((zeros 300).length = 136 * 2 + 28 ∧ 28 < 136) ∧
    ((zeros 136).length = 136 * 1 + 0 ∧ 0 < 136) ∧ ((zeros 271).length = 136 * 1 + 135 ∧ 135 < 136) := by
  decide +kernel

theorem witness_PadCommandPadsTheBuffer : State.reset.cfg.msgCap ≤ 4352 ∧ 4351 < State.reset.cfg.msgCap ∧
    4351 < 2 ^ 24 ∧ 0 < paddedLength 0 ∧ paddedLength 4351 ≤ 4352 := by decide

theorem witness_PaddingDependsOnTheLengthAlone : (zeros 3).length = (count 3).length ∧
    ∃ t t', 200 < State.reset.cfg.msgCap ∧ 200 < dirty.cfg.msgCap ∧ exec (.pad 200) State.reset = .next t ∧
      exec (.pad 200) dirty = .next t' ∧ 200 ≤ 271 ∧ 271 < paddedLength 200 :=
  ⟨by decide, _, _, by decide, by decide, execPad_of_lt (by decide), execPad_of_lt (by decide), by decide, by decide⟩

theorem witness_reset_inv : State.reset.Inv where
  msg_wf := State.reset_msg_wf
  msg_inside := fun c h => by cases h
  lengths := .inl ⟨rfl, rfl⟩
  err_sticky := fun e h => by cases h
  errinfo_clear := fun _ => rfl

theorem witness_PadTwiceIsPadOnce : ∃ t, State.reset.Inv ∧ exec (.pad 4351) State.reset = .next t :=
  ⟨_, witness_reset_inv, execPad_of_lt (by decide)⟩

theorem witness_AbsorbBlockFollowsItsRule : (count 135).length ≠ 136 ∧ (count 136).length = 136 ∧
    (16 : Fin 25).val < 17 ∧ 17 ≤ (24 : Fin 25).val ∧ 7 < 8 ∧ (count 136)[8 * (16 : Fin 25).val + 7]? = some 0x87 := by
  decide +kernel

theorem witness_AbsorbIsAnXorOfTheRate : ∃ T, absorbBlock s0 (count 136) = .ok T ∧ 17 ≤ (17 : Fin 25).val ∧
    (24 : Fin 25).val ≤ 24 := ⟨_, absorbBlock_eq_ok.2 ⟨by decide +kernel, rfl⟩, by decide, by decide⟩

theorem witness_TwoAbsorbsAbsorbTheXor : ∃ T U, absorbBlock s0 (count 136) = .ok T ∧ absorbBlock T (zeros 136) = .ok U :=
  ⟨_, _, absorbBlock_eq_ok.2 ⟨by decide +kernel, rfl⟩, absorbBlock_eq_ok.2 ⟨by decide +kernel, rfl⟩⟩

theorem witness_SqueezeReadsFourLanesLowByteFirst : (∀ j : Fin 4, s0[j.val] = (s0.set 24 0)[j.val]) ∧
    s0 ≠ s0.set 24 0 := by decide +kernel

theorem witness_SqueezeUndoesAbsorb : ∃ T, absorbBlock Lanes.zero (count 136) = .ok T :=
  ⟨_, absorbBlock_eq_ok.2 ⟨by decide +kernel, rfl⟩⟩

theorem witness_AbsorbCommandXorsOneSlot : 135 ≠ 136 ∧ State.reset.cfg.maxBlocks ≤ 32 ∧ 31 < State.reset.cfg.maxBlocks ∧
    65535 < 65536 ∧ 255 < 256 := by decide

theorem witness_HashIsPadAbsorbPermuteSqueeze : 0 < (zeros 0).length / 136 + 1 ∧ 2 < (zeros 272).length / 136 + 1 := by
  decide +kernel

theorem witness_HashCommandComputesTheHash : State.reset.cfg.msgCap ≤ 4352 ∧ 4351 < State.reset.cfg.msgCap ∧
    4351 < 2 ^ 24 ∧ 200 < paddedLength 200 ∧ paddedLength 200 ≤ 272 := by decide

theorem witness_HashEqualsThePrimitiveCommands : 4351 < State.reset.cfg.msgCap ∧ State.reset.cfg.msgCap ≤ 4352 := by decide

theorem witness_HashInPiecesIsTheHash : (∀ b ∈ [count 136, zeros 136], b.length = 136) ∧ (count 135).length < 136 := by
  decide +kernel

theorem witness_HashDependsOnTheMessageAlone : ∃ t t', 2 < loaded.cfg.msgCap ∧ 2 < failed.cfg.msgCap ∧
    (∀ a < 2, loaded.msgByte a = (failed.memWrite 0 (count 2)).msgByte a) ∧
    exec (.hash 2) loaded = .next t ∧ exec (.hash 2) (failed.memWrite 0 (count 2)) = .next t' := by
  refine ⟨_, _, by decide +kernel, by decide, by decide +kernel, execHash_of_lt ?_, execHash_of_lt ?_⟩ <;> decide +kernel

theorem witness_StatusBitsAreWhereTheRegisterMapPutsThem : State.reset.status.err = none ∧
    failed.status.err = some .illegalCommand := by decide

theorem witness_EveryCommandEndsInOneOfTwoWays : commandError Config.standard 0x03000000 = none ∧
    decode 0x03000000 ≠ .command .clrerr ∧
    commandError Config.standard 0x0487FFFF = some .invalidBlockSize ∧
    commandError Config.standard 0x08000000 = some .illegalCommand ∧
    commandError Config.standard 0x06001100 = some .lengthOutOfRange ∧
    commandError Config.standard 0x04880020 = some .blockOutOfRange := by decide +kernel

/-- No hypotheses; this says that each of the registers is written by some command on some state. -/
theorem witness_NoCommandReadsTheRecords :
    (after { State.reset with lanes := s0 } (cmdw 0x05000000)).map (fun t => decide (t.digest ≠ State.reset.digest)) =
      some true ∧
    (after failed (cmdw 0x030000C8)).map (fun t => (t.mlen, t.plen)) = some (200, 272) := by
  decide +kernel

theorem witness_StickyBitsFallOnlyByClrerrOrReset : failed.status.sticky.has .lengthOutOfRange = true ∧
    (after failed (cmdw 0x07000000)).map (fun t => t.status.sticky.has .lengthOutOfRange) = some false := by
  decide +kernel

theorem witness_StepRunsTheDecodedCommand : decode 0x0400FFFF = .command (.absorb 65535 0) ∧
    decode 0 = .illegal 0 := by decide

theorem witness_FetchWordRunsNext : decodeTableWord 32 0x06000000 = some (.hash 0) ∧
    decodeTableWord 32 0x04FFFFFF = some (.absorb 65535 255) := by decide

theorem witness_WriteByteStoresOneByte : 4351 < State.reset.cfg.msgCap ∧ State.reset.cfg.msgCap ≤ 4352 ∧
    0x001000 + 4352 < 2 ^ 24 ∧ 0x001000 + 16773119 < 2 ^ 24 ∧ (∀ b, Data.b4 0 ≠ .b1 b) := by
  refine ⟨by decide, by decide, by decide, by decide, fun b h => by cases h⟩

theorem witness_ReadByteReturnsTheByte : 4351 < State.reset.cfg.msgCap ∧ State.reset.cfg.msgCap ≤ 4352 ∧
    0x001000 + 4352 < 2 ^ 24 ∧ AccessSize.four ≠ .one := by decide

theorem witness_WriteLaneStoresOneLane : ¬ ((0x0000C8 : BitVec 24).toNat % 8 = 0 ∧ (0x0000C8 : BitVec 24).toNat ≤ 0x0000C0) ∧
    ¬ ((0x000004 : BitVec 24).toNat % 8 = 0 ∧ (0x000004 : BitVec 24).toNat ≤ 0x0000C0) ∧
    (23 : Fin 25) ≠ 24 ∧ (∀ u, Data.b4 0 ≠ .b8 u) := by
  refine ⟨by decide, by decide, by decide, fun u h => by cases h⟩

theorem witness_ReadLaneReturnsTheLane :
    ¬ ((0xFFFFFF : BitVec 24).toNat % 8 = 0 ∧ (0xFFFFFF : BitVec 24).toNat ≤ 0x0000C0) ∧ AccessSize.one ≠ .eight := by decide

theorem witness_ReadDigestReturnsTheByte : AccessSize.eight ≠ .one ∧ (31 : Fin 32).val < 32 := by decide

theorem witness_ReadRegisterReturnsItsValue : AccessSize.eight ≠ .four ∧
    ((0x000110 : BitVec 24), CtlReg.errinfo) ∈
      [((0x000104 : BitVec 24), CtlReg.status), (0x000108, .mlen), (0x00010C, .plen), (0x000110, .errinfo)] := by decide

theorem witness_OnlyPermittedTransactionsAreServed :
    readPermitted Config.standard 0x0000C0 .eight ∧ ¬ readPermitted Config.standard 0x0000C8 .eight ∧
    readPermitted Config.standard 0x0020FF .one ∧ ¬ readPermitted Config.standard 0x002100 .one ∧
    readPermitted Config.standard 0x000110 .four ∧ ¬ readPermitted Config.standard 0x000100 .four ∧
    writePermitted Config.standard 0x000100 (.b4 0) ∧ ¬ writePermitted Config.standard 0x000104 (.b4 0) ∧
    writePermitted Config.standard 0x0020FF (.b1 0) ∧ ¬ writePermitted Config.standard 0x002100 (.b1 0) := by
  have hc : Config.standard.msgCap = 4352 := by decide
  have h8 : ¬ ∃ i < 25, (0x0000C8 : BitVec 24).toNat = 8 * i := by
    rintro ⟨i, hi, h⟩
    simp at h
    omega
  simp only [readPermitted, writePermitted, hc]
  refine ⟨⟨24, by decide⟩, h8, ?_⟩
  decide

theorem witness_ReadsAndIdleStepsChangeNothing : State.reset.port = [] := rfl

theorem witness_ResetLeavesTheStateOfTheTable : State.reset.msg.get? 4351 = none := rfl

theorem witness_StepKeepsTheInvariant : State.reset.Inv ∧
    ∃ t, step (State.reset.withFetchWord 32 0x02000000) = .next t ∧ (State.reset.withFetchWord 32 0x02000000).Inv :=
  ⟨witness_reset_inv, _, rfl, { witness_reset_inv with }⟩

/-- A write to lane 24, `INIT` and a reset all change the lanes; `SQUEEZE` changes the digest. -/
theorem witness_LanesAndDigestChangeOnlyByTheirWriters :
    (after State.reset (wrl 24 1)).map (fun t => decide (t.lanes[24] ≠ State.reset.lanes[24])) = some true ∧
    (after failed (cmdw 0x01000000)).map (fun t => decide (t.lanes ≠ failed.lanes)) = some true ∧
    (after failed .reset).map (fun t => decide (t.lanes ≠ failed.lanes)) = some true ∧
    (after failed (cmdw 0x05000000)).map (fun t => decide (t.digest ≠ failed.digest)) = some true ∧
    17 ≤ (24 : Fin 25).val := by decide +kernel

/-- A write to the last byte and `PAD 200` change bytes of the buffer. -/
theorem witness_BufferBytesChangeOnlyByTheirWriters :
    (after loaded (wrb 135 0x88)).map (fun t => decide (t.msgByte 135 ≠ loaded.msgByte 135)) = some true ∧
    (after dirty (cmdw 0x030000C8)).map (fun t => decide (t.msgByte 271 ≠ dirty.msgByte 271)) = some true := by
  decide +kernel

/-- `PAD 200` changes the lengths; `CLRERR` and a failing command change `ERRINFO`. -/
theorem witness_RegistersChangeOnlyByTheirWriters :
    (after State.reset (cmdw 0x030000C8)).map (fun t => decide (t.mlen ≠ 0 ∧ t.plen ≠ 0)) = some true ∧
    (after failed (cmdw 0x07000000)).map (fun t => decide (t.errinfo ≠ failed.errinfo)) = some true ∧
    (after failed (cmdw 0xFFFFFFFF)).map (fun t => decide (t.errinfo ≠ failed.errinfo)) = some true := by
  decide +kernel

end Sys2Proof.Tests
end

/-! PROOFS of the family 00_scope.md: rotation within a lane (R10), the conversions between bytes and lanes (R11). -/

namespace Sys2Proof.Machine

open Sys2Proof.Claims

/-! ### Rotation -/

@[simp] theorem rol64_zero (v : Lane) : rol64 v 0 = v := rfl

/-- The model's rotation is the library's. At `n = 0` the library's right shift is by the whole width. -/
theorem rol64_eq_rotateLeft (v : Lane) {n : Nat} (hn : n < 64) : rol64 v n = v.rotateLeft n := by
  rw [BitVec.rotateLeft_def, Nat.mod_eq_of_lt hn]
  by_cases h0 : n = 0
  · simp [h0, BitVec.ushiftRight_eq_zero]
  · simp [rol64, h0]

/-- R10's formula on numbers. -/
theorem rol64_toNat_eq_mod_or_div (v : Lane) {n : Nat} (hn : n ≠ 0) :
    (rol64 v n).toNat = (v.toNat * 2 ^ n) % 2 ^ 64 ||| v.toNat / 2 ^ (64 - n) := by
  rw [rol64_toNat, rolNat, if_neg hn, Nat.shiftLeft_eq, Nat.shiftRight_eq_div_pow]

/-- A bit either moves up by `n`, or wraps around to the low end. -/
theorem rol64_getLsbD_add_mod (v : Lane) {n i : Nat} (hn : n < 64) (hi : i < 64) :
    (rol64 v n).getLsbD ((i + n) % 64) = v.getLsbD i := by
  rw [rol64_eq_rotateLeft v hn, BitVec.getLsbD_rotateLeft, Nat.mod_eq_of_lt hn]
  by_cases hwrap : i + n < 64
  · have hpos : (i + n) % 64 = i + n := Nat.mod_eq_of_lt hwrap
    simp [hpos, hwrap]
  · have hpos : (i + n) % 64 = i + n - 64 := by omega
    have hlow : i + n - 64 < n := by omega
    have hback : 64 - n + (i + n - 64) = i := by omega
    simp [hpos, hlow, hback]

/-- Settles O6: the formula is `rolNat`'s, and the bits move as in the library's rotation. -/
theorem rotateLeftMovesEachBit : Obligations.RotateLeftMovesEachBit := by
  intro v
  refine ⟨rol64_zero v, ?_, ?_⟩
  · intro n hpos _
    exact rol64_toNat_eq_mod_or_div v (Nat.ne_of_gt hpos)
  · intro n hn i hi
    exact rol64_getLsbD_add_mod v (Nat.lt_succ_of_le hn) hi

/-! ### Bytes and lanes -/

/-- `le64` of eight bytes loses nothing of their number. -/
theorem le64_toNat {bs : List Byte} (hl : bs.length = 8) : (le64 bs).toNat = leNat bs := by
  have hlt := leNat_lt bs
  rw [hl] at hlt
  rw [le64, BitVec.toNat_ofNat, Nat.mod_eq_of_lt hlt]

@[simp] theorem bytesLe_length (v : Lane) : (bytesLe v).length = 8 := rfl

@[simp] theorem bytesLe_getElem (v : Lane) (k : Nat) (h : k < (bytesLe v).length) : (bytesLe v)[k] = laneByte v k := by
  simp [bytesLe]

/-- Byte `k` of the swapped lane is byte `7-k` of the lane. -/
theorem laneByte_bswap64 (v : Lane) {k : Nat} (h : k < 8) : laneByte (bswap64 v) k = laneByte v (7 - k) := by
  have hl : (bytesLe v).reverse.length = 8 := by simp
  rw [bswap64, laneByte_le64 _ hl k h, List.getElem_reverse, bytesLe_getElem, bytesLe_length]

theorem bigEndian_concat (bs : List Byte) (b : Byte) : bigEndian (bs ++ [b]) = 256 * bigEndian bs + b.toNat := by
  simp [bigEndian]

/-- The big-endian reading is the little-endian reading of the reversed sequence. -/
theorem bigEndian_reverse (bs : List Byte) : bigEndian bs.reverse = leNat bs := by
  induction bs with
  | nil => rfl
  | cons b bs ih =>
    rw [List.reverse_cons, bigEndian_concat, ih, leNat_cons]
    omega

theorem bigEndian_bytesLe (v : Lane) : bigEndian (bytesLe v) = (bswap64 v).toNat := by
  have h := bigEndian_reverse (bytesLe v).reverse
  rw [List.reverse_reverse] at h
  rw [h, bswap64, le64_toNat (by simp)]

/-- Settles O7: `le64` is the number of its bytes, the rest is read off byte by byte. -/
theorem bytesAndLanesConvertLittleEndian : Obligations.BytesAndLanesConvertLittleEndian := by
  constructor
  · intro b0 b1 b2 b3 b4 b5 b6 b7
    rw [le64_toNat rfl]
    simp only [leNat]
    omega
  · intro v
    refine ⟨bytesLe_length v, ?_, le64_bytesLe v, ?_, bigEndian_bytesLe v⟩
    · intro k hk
      rw [List.getElem?_eq_getElem (by simpa using hk), bytesLe_getElem, laneByte]
    · intro k hk
      exact laneByte_bswap64 v hk

end Sys2Proof.Machine

/-! PROOFS of the family 10_state.md: the state after reset (R35). -/

namespace Sys2Proof.Machine

/-! ### The reset values of the table, field by field -/

theorem State.reset_lanes_getElem (i : Fin 25) : State.reset.lanes[i] = 0 := Lanes.zero_getElem i

theorem State.reset_digest_getElem (b : Fin 32) : State.reset.digest[b] = 0 := by simp [State.reset]

@[simp] theorem State.reset_readReg (r : CtlReg) : State.reset.readReg r = 0 := by cases r <;> rfl

@[simp] theorem State.reset_msg_get? (a : Nat) : State.reset.msg.get? a = none := Memory.get?_nil a

/-- An offset that lists no written byte reads as the free value of the draw. -/
theorem State.msgByte_of_unwritten {s : State} {a : Nat} (h : s.msg.get? a = none) :
    s.msgByte a = Config.msgDraw s.draw a := by
  rw [State.msgByte, h, Option.getD_none]

/-! ### A reset served from the port -/

@[simp] theorem State.applyReset_readReg (s : State) (r : CtlReg) : s.applyReset.readReg r = 0 := by
  have hreset : s.applyReset.readReg r = State.reset.readReg r := by cases r <;> rfl
  rw [hreset, State.reset_readReg]

theorem State.applyReset_msgByte (s : State) (a : Nat) : s.applyReset.msgByte a = Config.msgDraw s.applyReset.draw a :=
  State.msgByte_of_unwritten (by simp)

theorem step_reset (s : State) (rest : List HostEvent) :
    step { s with port := .reset :: rest } = .next (s.take rest).applyReset := rfl

/-- Settles O53: a reset gives every field of the table the value `State.reset` has there, and lists no byte, so that every
offset reads as the free value of the new draw. -/
theorem resetLeavesTheStateOfTheTable : Obligations.ResetLeavesTheStateOfTheTable := by
  refine ⟨?served, State.reset_lanes_getElem, fun a => State.msgByte_of_unwritten (State.reset_msg_get? a),
    State.reset_readReg .mlen, State.reset_readReg .plen, State.reset_digest_getElem, State.reset_readReg .status,
    State.reset_readReg .errinfo, fun _ _ hunwritten => State.msgByte_of_unwritten hunwritten⟩
  intro s rest
  have hreg := (s.take rest).applyReset_readReg
  exact ⟨(s.take rest).applyReset, step_reset s rest, State.reset_lanes_getElem, (s.take rest).applyReset_msgByte,
    hreg .mlen, hreg .plen, State.reset_digest_getElem, hreg .status, hreg .errinfo, rfl, rfl⟩

end Sys2Proof.Machine

/-! PROOFS of the family 30_encoding.md: the formats (R61), the rows of the opcode map (R63), the reserved words (R64), and
the decoder with the encoder (R66). -/

namespace Sys2Proof

open Sys2Proof.Laws

/-! ### A word is what its fields make -/

theorem wordL_of_fields (w : Word) : wordL (opField w) (lenField w).toNat = w := by
  apply BitVec.eq_of_toNat_eq
  rw [wordL_toNat, opField_toNat, lenField_toNat]
  omega

theorem wordZ_of_opField {w : Word} (h : lenField w = 0) : wordZ (opField w) = w := by
  apply BitVec.eq_of_toNat_eq
  have hlen := (lenField_eq_zero_iff w).1 h
  rw [wordZ_toNat, opField_toNat]
  omega

theorem wordB_of_fields (w : Word) : wordB (opField w) (nField w).toNat (kField w).toNat = w := by
  apply BitVec.eq_of_toNat_eq
  rw [wordB_toNat, opField_toNat, nField_toNat, kField_toNat]
  omega

/-! ### The formats as an OR of their fields -/

theorem wordL_eq_or (op : BitVec 8) {len : Nat} (h : len < 2 ^ 24) :
    wordL op len = op.setWidth 32 <<< 24 ||| BitVec.ofNat 32 len := by
  apply BitVec.eq_of_toNat_eq
  have hop : op.toNat < 2 ^ 8 := op.isLt
  have hshift : (op.setWidth 32 <<< 24).toNat = op.toNat <<< 24 := by
    rw [BitVec.toNat_shiftLeft, BitVec.toNat_setWidth, Nat.shiftLeft_eq, Nat.shiftLeft_eq]
    omega
  have hlen : (BitVec.ofNat 32 len).toNat = len := by
    rw [BitVec.toNat_ofNat]
    omega
  rw [wordL_toNat, BitVec.toNat_or, hshift, hlen, ← Nat.shiftLeft_add_eq_or_of_lt h, Nat.shiftLeft_eq, Nat.mod_eq_of_lt h]

/-- Format `B` is format `L` with `n` and `k` side by side in the operand field. -/
theorem wordB_eq_wordL (op : BitVec 8) (n : Nat) {k : Nat} (hk : k < 65536) :
    wordB op n k = wordL op (n <<< 16 ||| k) := by
  apply BitVec.eq_of_toNat_eq
  rw [wordB_toNat, wordL_toNat, ← Nat.shiftLeft_add_eq_or_of_lt hk, Nat.shiftLeft_eq]
  omega

theorem wordB_eq_or (op : BitVec 8) {n k : Nat} (hn : n < 256) (hk : k < 65536) :
    wordB op n k = op.setWidth 32 <<< 24 ||| BitVec.ofNat 32 n <<< 16 ||| BitVec.ofNat 32 k := by
  have hfit : n <<< 16 ||| k < 2 ^ 24 := by
    rw [← Nat.shiftLeft_add_eq_or_of_lt hk, Nat.shiftLeft_eq]
    omega
  have hsplit : BitVec.ofNat 32 (n <<< 16 ||| k) = BitVec.ofNat 32 n <<< 16 ||| BitVec.ofNat 32 k := by
    apply BitVec.eq_of_toNat_eq
    simp [Nat.shiftLeft_eq]
  rw [wordB_eq_wordL op n hk, wordL_eq_or op hfit, hsplit, BitVec.or_assoc]

/-! ### The encoder, row by row (R66) -/

@[simp] theorem encode_init : encode .init = 0x01000000 := rfl
@[simp] theorem encode_permute : encode .permute = 0x02000000 := rfl
@[simp] theorem encode_squeeze : encode .squeeze = 0x05000000 := rfl
@[simp] theorem encode_clrerr : encode .clrerr = 0x07000000 := rfl

theorem encode_pad {len : Nat} (h : len < 2 ^ 24) : encode (.pad len) = 0x03000000#32 ||| BitVec.ofNat 32 len :=
  wordL_eq_or 0x03 h

theorem encode_hash {len : Nat} (h : len < 2 ^ 24) : encode (.hash len) = 0x06000000#32 ||| BitVec.ofNat 32 len :=
  wordL_eq_or 0x06 h

theorem encode_absorb {k n : Nat} (hk : k < 65536) (hn : n < 256) :
    encode (.absorb k n) = 0x04000000#32 ||| (BitVec.ofNat 32 n <<< 16) ||| BitVec.ofNat 32 k :=
  wordB_eq_or 0x04 hn hk

/-! ### The decoder and the encoder undo each other -/

theorem decode_eq_pad {w : Word} (h : opField w = 0x03) : decode w = .command (.pad (lenField w).toNat) := by
  simp [decode, h]

theorem decode_eq_absorb {w : Word} (h : opField w = 0x04) :
    decode w = .command (.absorb (kField w).toNat (nField w).toNat) := by
  simp [decode, h]

theorem decode_eq_hash {w : Word} (h : opField w = 0x06) : decode w = .command (.hash (lenField w).toNat) := by
  simp [decode, h]

theorem decode_encode {i : Instr} (h : i.wf = true) : decode (encode i) = .command i := by
  cases i with
  | init => rfl
  | permute => rfl
  | squeeze => rfl
  | clrerr => rfl
  | pad len =>
    obtain ⟨hop, hlen⟩ := wordL_fields 0x03 len
    have hfit : len < 2 ^ 24 := of_decide_eq_true h
    rw [encode, decode_eq_pad hop, hlen, Nat.mod_eq_of_lt hfit]
  | hash len =>
    obtain ⟨hop, hlen⟩ := wordL_fields 0x06 len
    have hfit : len < 2 ^ 24 := of_decide_eq_true h
    rw [encode, decode_eq_hash hop, hlen, Nat.mod_eq_of_lt hfit]
  | absorb k n =>
    obtain ⟨hop, hn, hk⟩ := wordB_fields 0x04 n k
    obtain ⟨hkfit, hnfit⟩ : k < 2 ^ 16 ∧ n < 2 ^ 8 := by simpa [Instr.wf] using h
    rw [encode, decode_eq_absorb hop, hn, hk, Nat.mod_eq_of_lt hkfit, Nat.mod_eq_of_lt hnfit]

/-- The operands that a word's fields hold fit these fields. -/
theorem wf_of_fields (w : Word) : (Instr.pad (lenField w).toNat).wf = true ∧ (Instr.hash (lenField w).toNat).wf = true ∧
    (Instr.absorb (kField w).toNat (nField w).toNat).wf = true := by
  have hlen := (lenField w).isLt
  have hk := (kField w).isLt
  have hn := (nField w).isLt
  simp only [Instr.wf, Bool.and_eq_true, decide_eq_true_eq]
  exact ⟨hlen, hlen, hk, hn⟩

theorem encode_of_decode {w : Word} {i : Instr} (h : decode w = .command i) : i.wf = true ∧ encode i = w := by
  obtain ⟨hpad, hhash, habsorb⟩ := wf_of_fields w
  unfold decode at h
  split_ifs at h with h1 h2 h3 h4 h5 h6 h7 <;> obtain rfl := Decoded.command.inj h
  · exact ⟨rfl, by rw [encode, ← h1.1, wordZ_of_opField h1.2]⟩
  · exact ⟨rfl, by rw [encode, ← h2.1, wordZ_of_opField h2.2]⟩
  · exact ⟨hpad, by rw [encode, ← h3, wordL_of_fields]⟩
  · exact ⟨habsorb, by rw [encode, ← h4, wordB_of_fields]⟩
  · exact ⟨rfl, by rw [encode, ← h5.1, wordZ_of_opField h5.2]⟩
  · exact ⟨hhash, by rw [encode, ← h6, wordL_of_fields]⟩
  · exact ⟨rfl, by rw [encode, ← h7.1, wordZ_of_opField h7.2]⟩

theorem decode_eq_command_iff (w : Word) (i : Instr) : decode w = .command i ↔ i.wf = true ∧ encode i = w := by
  constructor
  · exact encode_of_decode
  · rintro ⟨hwf, rfl⟩
    exact decode_encode hwf

/-- R66's seven lines, with the fields as quotients and remainders. -/
theorem decode_eq_of_toNat (w : Word) : decode w =
    if w.toNat / 2 ^ 24 = 0x01 ∧ w.toNat % 2 ^ 24 = 0 then .command .init
    else if w.toNat / 2 ^ 24 = 0x02 ∧ w.toNat % 2 ^ 24 = 0 then .command .permute
    else if w.toNat / 2 ^ 24 = 0x03 then .command (.pad (w.toNat % 2 ^ 24))
    else if w.toNat / 2 ^ 24 = 0x04 then .command (.absorb (w.toNat % 2 ^ 16) (w.toNat / 2 ^ 16 % 2 ^ 8))
    else if w.toNat / 2 ^ 24 = 0x05 ∧ w.toNat % 2 ^ 24 = 0 then .command .squeeze
    else if w.toNat / 2 ^ 24 = 0x06 then .command (.hash (w.toNat % 2 ^ 24))
    else if w.toNat / 2 ^ 24 = 0x07 ∧ w.toNat % 2 ^ 24 = 0 then .command .clrerr
    else .illegal w := by
  simp only [decode, lenField_eq_zero_iff]
  simp only [BitVec.ofNat_eq_ofNat, opField_eq_iff, lenField_toNat, kField_toNat, nField_toNat, Nat.reducePow, Nat.reduceLT]

/-- Settles O2: the decoder's conditions read as numbers, the formats as ORs, and `decode_encode`. -/
theorem decodeAndEncodeFollowTheirRule : Obligations.DecodeAndEncodeFollowTheirRule := by
  refine ⟨decode_eq_of_toNat, encode_init, encode_permute, fun _ => encode_pad, fun _ hk _ hn => encode_absorb hk hn,
    encode_squeeze, fun _ => encode_hash, encode_clrerr, ?_⟩
  intro len hlen n hn k hk i hi
  have hwf : ∀ i ∈ [Instr.init, .permute, .pad len, .absorb k n, .squeeze, .hash len, .clrerr], i.wf = true := by
    simpa [Instr.wf, hn, hk] using hlen
  exact decode_encode (hwf i hi)

/-! ### Mask and match (R63) -/

/-- A row without operands: its mask keeps every bit. -/
theorem and_fullMask_eq_iff (w : Word) {i : Instr} (h : i.wf = true) :
    w &&& 0xFFFFFFFF#32 = encode i ↔ decode w = .command i := by
  have hmask : w &&& 0xFFFFFFFF#32 = w := BitVec.and_allOnes
  rw [decode_eq_command_iff, hmask, eq_comm]
  exact ⟨fun he => ⟨h, he⟩, fun he => he.2⟩

/-- The mask of a row with operands keeps the opcode and clears the operand field. -/
theorem and_opMask (w : Word) : w &&& 0xFF000000#32 = wordZ (opField w) := by
  have hw : w = opField w ++ lenField w := by
    have h := wordL_of_fields w
    rw [wordL, BitVec.ofNat_toNat, BitVec.setWidth_eq] at h
    exact h.symm
  have hmask : 0xFF000000#32 = BitVec.allOnes 8 ++ 0#24 := rfl
  calc w &&& 0xFF000000#32
      = (opField w ++ lenField w) &&& (BitVec.allOnes 8 ++ 0#24) := by rw [← hw, hmask]
    _ = wordZ (opField w) := by rw [BitVec.and_append, BitVec.and_allOnes, BitVec.and_zero, wordZ]

theorem and_opMask_eq_iff (w : Word) (op : BitVec 8) : w &&& 0xFF000000#32 = wordZ op ↔ opField w = op := by
  rw [and_opMask]
  constructor
  · intro h
    rw [← (wordZ_fields (opField w)).1, h, (wordZ_fields op).1]
  · exact congrArg wordZ

/-- The laws of `Laws/PerInstr.lean`, for every command. -/
theorem encode_toNat_div (i : Instr) : (encode i).toNat / 2 ^ 24 = OpField.rowOp i := by
  cases i with
  | init => exact OpField.init
  | permute => exact OpField.permute
  | pad len => exact OpField.pad len
  | absorb k n => exact OpField.absorb k n
  | squeeze => exact OpField.squeeze
  | hash len => exact OpField.hash len
  | clrerr => exact OpField.clrerr

/-- A word that decodes to a command carries the opcode of the command's row. -/
theorem opField_of_decode {w : Word} {i : Instr} (h : decode w = .command i) : (opField w).toNat = OpField.rowOp i := by
  rw [opField_toNat, ← (encode_of_decode h).2, encode_toNat_div]

theorem opField_eq_pad_iff (w : Word) : opField w = 0x03 ↔ ∃ len, decode w = .command (.pad len) := by
  constructor
  · exact fun h => ⟨_, decode_eq_pad h⟩
  · rintro ⟨len, h⟩
    exact BitVec.eq_of_toNat_eq (opField_of_decode h)

theorem opField_eq_absorb_iff (w : Word) : opField w = 0x04 ↔ ∃ k n, decode w = .command (.absorb k n) := by
  constructor
  · exact fun h => ⟨_, _, decode_eq_absorb h⟩
  · rintro ⟨k, n, h⟩
    exact BitVec.eq_of_toNat_eq (opField_of_decode h)

theorem opField_eq_hash_iff (w : Word) : opField w = 0x06 ↔ ∃ len, decode w = .command (.hash len) := by
  constructor
  · exact fun h => ⟨_, decode_eq_hash h⟩
  · rintro ⟨len, h⟩
    exact BitVec.eq_of_toNat_eq (opField_of_decode h)

/-- Settles O3: the full mask compares with the command's word, the other mask compares the opcode. -/
theorem commandsAreTheWordsOfTheOpcodeMap : Obligations.CommandsAreTheWordsOfTheOpcodeMap := by
  intro w
  exact ⟨and_fullMask_eq_iff w (i := .init) rfl, and_fullMask_eq_iff w (i := .permute) rfl,
    (and_opMask_eq_iff w 0x03).trans (opField_eq_pad_iff w),
    (and_opMask_eq_iff w 0x04).trans (opField_eq_absorb_iff w),
    and_fullMask_eq_iff w (i := .squeeze) rfl,
    (and_opMask_eq_iff w 0x06).trans (opField_eq_hash_iff w),
    and_fullMask_eq_iff w (i := .clrerr) rfl⟩

/-! ### Reserved words (R64) -/

theorem decode_eq_illegal_iff (w v : Word) : decode w = .illegal v ↔
    w = v ∧ (w.toNat / 2 ^ 24 = 0 ∨ 0x08 ≤ w.toNat / 2 ^ 24 ∨
      (w.toNat / 2 ^ 24 ∈ [0x01, 0x02, 0x05, 0x07] ∧ w.toNat % 2 ^ 24 ≠ 0)) := by
  simp only [List.mem_cons, List.not_mem_nil, or_false]
  rw [decode_eq_of_toNat]
  split_ifs
  case neg =>
    rw [Decoded.illegal.injEq]
    refine (and_iff_left ?_).symm
    omega
  all_goals
    refine iff_of_false id ?_
    omega

namespace Machine

theorem State.issue_illegal (s : State) {w : Word} (h : decode w = .illegal w) :
    s.issue w = .next ((s.raise .illegalCommand w).respond .ok) := by
  rw [State.issue, h]

end Machine

/-- Settles O4: the branch of the decoder that no row takes, and what issuing such a word records. -/
theorem illegalWordsAreTheReservedEncodings : Obligations.IllegalWordsAreTheReservedEncodings :=
  ⟨decode_eq_illegal_iff, fun s _ h => s.issue_illegal h⟩

end Sys2Proof

/-! PROOFS of the family 41_permutation.md: the five steps (R85 to R89), the round and the permutation (R90, R91), the
command `PERMUTE` (R95), and what no command reads. -/

namespace Sys2Proof.Machine

open Sys2Proof.Claims

/-! ### Lane files that hold one value throughout

The zero state and the all-ones state are fixed by the first four steps because all their lanes, and all the bits of a
lane, are the same. -/

theorem rol64_zero_lane {n : Nat} (hn : n < 64) : rol64 0 n = 0 := by
  rw [rol64_eq_rotateLeft 0 hn]
  ext i hi
  simp [BitVec.getElem_rotateLeft]

theorem rol64_allOnes {n : Nat} (hn : n < 64) : rol64 (BitVec.allOnes 64) n = BitVec.allOnes 64 := by
  rw [rol64_eq_rotateLeft _ hn]
  ext i hi
  simp only [BitVec.getElem_rotateLeft, BitVec.getElem_allOnes, dite_eq_ite, ite_self]

theorem Lanes.replicate_getElem (v : Lane) (i : Fin 25) : (Vector.replicate 25 v)[i] = v := by simp

theorem thetaC_replicate (v : Lane) (x : Fin 5) : thetaC (Vector.replicate 25 v) x = v := by
  simp [thetaC]

theorem theta_replicate {v : Lane} (h : rol64 v 1 = v) : theta (Vector.replicate 25 v) = Vector.replicate 25 v := by
  apply Lanes.ext
  intro i
  rw [theta_getElem, thetaD, thetaC_replicate, thetaC_replicate, h, BitVec.xor_self, BitVec.xor_zero]

theorem rho_replicate {v : Lane} (h : ∀ n < 64, rol64 v n = v) : rho (Vector.replicate 25 v) = Vector.replicate 25 v := by
  apply Lanes.ext
  intro i
  rw [rho_getElem, Lanes.replicate_getElem, h _ (RHO i).isLt]

theorem pi_replicate (v : Lane) : pi (Vector.replicate 25 v) = Vector.replicate 25 v := by
  apply Lanes.ext
  intro j
  rw [pi_getElem, Lanes.replicate_getElem, Lanes.replicate_getElem]

theorem chi_replicate (v : Lane) : chi (Vector.replicate 25 v) = Vector.replicate 25 v := by
  apply Lanes.ext
  intro i
  have hand : ~~~ v &&& v = 0 := by ext; simp
  simp only [chi_getElem, Lanes.replicate_getElem, hand]
  exact BitVec.xor_zero

/-! ### theta (R85) -/

/-- Settles O11: the given columns and differences are the model's. -/
theorem thetaFollowsItsRule : Obligations.ThetaFollowsItsRule := by
  refine ⟨?_, theta_replicate (rol64_zero_lane (by decide)), theta_replicate (rol64_allOnes (by decide))⟩
  intro S C D hC hD i x hx
  have hcolumn : ∀ y, C y = thetaC S y := hC
  have hdiff : D x = thetaD S x := by
    rw [hD x (x + 4) (x + 1) (Fin.val_add x 4) (Fin.val_add x 1), hcolumn, hcolumn, thetaD]
  have hlane : laneX i = x := Fin.ext hx.symm
  rw [theta_getElem, hlane, hdiff]

/-! ### rho (R86) -/

/-- Settles O12: lane by lane; the amount of lane 0 is 0. -/
theorem rhoFollowsItsRule : Obligations.RhoFollowsItsRule := by
  refine ⟨rho_getElem, ?_, rho_replicate fun _ => rol64_zero_lane, rho_replicate fun _ => rol64_allOnes⟩
  intro S
  have hamount : (RHO 0).val = 0 := rfl
  have h := rho_getElem S 0
  rw [hamount, rol64_zero] at h
  exact h

/-! ### pi (R87) -/

/-- The source of a lane's destination is the lane. -/
theorem PISRC_PI : ∀ i : Fin 25, PISRC (PI i) = i := by decide

theorem pi_getElem_PI (S : Lanes) (i : Fin 25) : (pi S)[PI i] = S[i] := by
  simp only [pi_getElem, PISRC_PI]

/-- Settles O13: the form through `PISRC` is the definition; the form through `PI` holds as `PISRC` undoes it. -/
theorem piMovesEveryLaneToItsDestination : Obligations.PiMovesEveryLaneToItsDestination :=
  ⟨pi_getElem_PI, pi_getElem, fun S => pi_getElem_PI S 0, pi_replicate 0⟩

/-! ### chi (R88) -/

theorem chi_getElem_laneIndex (S : Lanes) (x y : Fin 5) : (chi S)[laneIndex x y] =
    S[laneIndex x y] ^^^ (~~~ S[laneIndex (x + 1) y] &&& S[laneIndex (x + 2) y]) := by
  simp only [chi_getElem, laneX_laneIndex, laneY_laneIndex]

/-- Settles O14: the row wraps as addition in `Fin 5` does. -/
theorem chiFollowsItsRule : Obligations.ChiFollowsItsRule := by
  refine ⟨?_, chi_replicate 0, chi_replicate _⟩
  intro S x y u v hu hv
  obtain rfl : u = x + 1 := Fin.ext (hu.trans (Fin.val_add x 1).symm)
  obtain rfl : v = x + 2 := Fin.ext (hv.trans (Fin.val_add x 2).symm)
  exact chi_getElem_laneIndex S x y

/-! ### iota (R89) -/

theorem iota_getElem_zero (S : Lanes) (r : Fin 24) : (iota S r)[0] = S[0] ^^^ RC r := iota_getElem S r 0

theorem iota_getElem_of_ne (S : Lanes) (r : Fin 24) {i : Fin 25} (h : i ≠ 0) : (iota S r)[i] = S[i] := by
  rw [iota_getElem, if_neg h]

theorem iota_iota (S : Lanes) (r : Fin 24) : iota (iota S r) r = S := by
  apply Lanes.ext
  intro i
  by_cases h : i = 0
  · subst h
    have hcancel : S[0] ^^^ RC r ^^^ RC r = S[0] := by rw [BitVec.xor_assoc, BitVec.xor_self, BitVec.xor_zero]
    rw [iota_getElem, if_pos rfl, iota_getElem_zero, hcancel]
    rfl
  · rw [iota_getElem_of_ne _ r h, iota_getElem_of_ne S r h]

/-- Settles O15: the XOR with the round constant meets lane 0 only, and cancels when it is done twice. -/
theorem iotaChangesLaneZeroOnly : Obligations.IotaChangesLaneZeroOnly :=
  fun S r => ⟨iota_getElem_zero S r, fun _ => iota_getElem_of_ne S r, iota_iota S r⟩

/-! ### The round and the permutation (R90, R91) -/

/-- A sequence in which each element is one turn of a fold after the one before ends in the fold. -/
theorem foldl_finRange_eq {α : Type} {n : Nat} (f : α → Fin n → α) (T : Nat → α)
    (h : ∀ r : Fin n, T (r.val + 1) = f (T r.val) r) : (List.finRange n).foldl f (T 0) = T n := by
  rw [← Fin.foldl_eq_foldl_finRange]
  induction n with
  | zero => rw [Fin.foldl_zero]
  | succ n ih => 
    have hfirst := ih (fun a r => f a r.castSucc) fun r => h r.castSucc
    rw [Fin.foldl_succ_last, hfirst]
    exact (h (Fin.last n)).symm

theorem keccakRound_zero : keccakRound Lanes.zero 0 = Lanes.zero.set 0 1 := by
  have htheta : theta Lanes.zero = Lanes.zero := theta_replicate (rol64_zero_lane (by decide))
  have hrho : rho Lanes.zero = Lanes.zero := rho_replicate fun _ => rol64_zero_lane
  have hpi : pi Lanes.zero = Lanes.zero := pi_replicate 0
  have hchi : chi Lanes.zero = Lanes.zero := chi_replicate 0
  rw [keccakRound, htheta, hrho, hpi, hchi]
  rfl

theorem permute_zero_lane_zero : (permute Lanes.zero)[0] = 0xF1258F7940E1DDE7 := by
  rw [permute_eq_fast]
  decide +kernel

theorem permute_zero_ne : permute Lanes.zero ≠ Lanes.zero := by
  intro h
  have hlane := permute_zero_lane_zero
  rw [h] at hlane
  exact absurd hlane (by decide)

/-- Settles O16: `permute` is a fold over the round numbers in order, and a sequence of rounds follows it. -/
theorem permuteIsTwentyFourRoundsInOrder : Obligations.PermuteIsTwentyFourRoundsInOrder := by
  refine ⟨fun _ _ => rfl, ?_, keccakRound_zero, permute_zero_lane_zero, permute_zero_ne⟩
  intro S T hstart hround
  rw [permute, ← hstart]
  exact foldl_finRange_eq keccakRound T hround

/-! ### The command `PERMUTE` (R95) -/

/-- Settles O17: `PERMUTE` cannot fail, and its success is what R95 says. -/
theorem permuteCommandPermutesTheLanes : Obligations.PermuteCommandPermutesTheLanes :=
  ⟨encode_permute, by decide, fun _ => exec_eq_of_succeeds .permute⟩

/-! ### What no command reads (the lists "Reads" of the command rules)

`STATUS`, `ERRINFO`, `DIGEST`, `MLEN` and `PLEN` are the records of the commands that ran before. Each operation a command
is made of is shown to commute with a change of them. -/

/-- The state with other records. -/
def State.withRecords (s : State) (st : Status) (e : Word) (d : Digest) (m p : BitVec 24) : State :=
  { s with status := st, errinfo := e, digest := d, mlen := m, plen := p }

section
variable (s : State) (st : Status) (e : Word) (d : Digest) (m p : BitVec 24)

@[simp] theorem State.withRecords_lanes : (s.withRecords st e d m p).lanes = s.lanes := rfl
@[simp] theorem State.withRecords_msg : (s.withRecords st e d m p).msg = s.msg := rfl
@[simp] theorem State.withRecords_mlen : (s.withRecords st e d m p).mlen = m := rfl
@[simp] theorem State.withRecords_plen : (s.withRecords st e d m p).plen = p := rfl
@[simp] theorem State.withRecords_digest : (s.withRecords st e d m p).digest = d := rfl
@[simp] theorem State.withRecords_status : (s.withRecords st e d m p).status = st := rfl
@[simp] theorem State.withRecords_errinfo : (s.withRecords st e d m p).errinfo = e := rfl
@[simp] theorem State.withRecords_cfg : (s.withRecords st e d m p).cfg = s.cfg := rfl
@[simp] theorem State.withRecords_draw : (s.withRecords st e d m p).draw = s.draw := rfl
@[simp] theorem State.withRecords_port : (s.withRecords st e d m p).port = s.port := rfl
@[simp] theorem State.withRecords_response : (s.withRecords st e d m p).response = s.response := rfl

/-- The padding replaces the two lengths and reads no record. -/
theorem State.padBuffer_withRecords (len : Nat) : (s.withRecords st e d m p).padBuffer len =
    (s.padBuffer len).withRecords st e d (BitVec.ofNat 24 len) (BitVec.ofNat 24 (paddedLength len)) := by
  have hmsg : ((s.withRecords st e d m p).padBuffer len).msg = (s.padBuffer len).msg :=
    State.padBuffer_msg_congr (by simp) (by simp) len
  apply State.ext <;> simp [hmsg]

/-- The rest of `HASH` replaces the digest and reads no record. -/
theorem State.hashBuffer_withRecords (n : Nat) : (s.withRecords st e d m p).hashBuffer n =
    (s.hashBuffer n).withRecords st e (s.hashBuffer n).digest m p := by
  have hread : ∀ b, (s.withRecords st e d m p).memRead (blockOffset b) rate = s.memRead (blockOffset b) rate :=
    fun b => State.memRead_congr fun _ _ => State.msgByte_congr (by simp) (by simp) _
  apply State.ext <;> simp [hread]

end

/-- What a command writes into the records besides `ERR`: one value, or nothing (`none`). -/
structure RecordWrites where
  bit : CmdError → Option Bool := fun _ => none
  info : Option Word := none
  digest : Option Digest := none
  mlen : Option (BitVec 24) := none
  plen : Option (BitVec 24) := none

/-- Whatever the records hold, the command leaves the lanes, the buffer and the `ERR` given, writes `r` into the records,
and changes nothing else. -/
def ExecIgnoresRecords (i : Instr) (s : State) (l : Lanes) (mem : Memory) (err : Option CmdError) (r : RecordWrites) :
    Prop :=
  ∀ (st : Status) (e : Word) (d : Digest) (m p : BitVec 24), ∃ k : Sticky,
    exec i (s.withRecords st e d m p) = .next (({ s with lanes := l, msg := mem } : State).withRecords
      { err := err, sticky := k } (r.info.getD e) (r.digest.getD d) (r.mlen.getD m) (r.plen.getD p)) ∧
    ∀ c, k.has c = (r.bit c).getD (st.sticky.has c)

/-- An error writes its own sticky bit and `ERRINFO`; its condition reads the parameter alone. -/
theorem execIgnoresRecords_of_fails {s : State} {i : Instr} {c : CmdError} (h : Fails s i c) :
    ExecIgnoresRecords i s s.lanes s.msg (some c)
      { bit := fun f => if c = f then some true else none, info := some (encode i) } := by
  intro st e d m p
  have hfails : Fails (s.withRecords st e d m p) i c := by
    cases h with
    | pad h => exact .pad h
    | absorbLength h => exact .absorbLength h
    | absorbSlot h => exact .absorbSlot h
    | hash h => exact .hash h
  refine ⟨st.sticky.mark c, exec_eq_of_fails hfails, ?_⟩
  intro f
  rw [Sticky.has_mark]
  by_cases hf : c = f <;> simp [hf]

/-- A success writes 0 to `ERR`; besides, `SQUEEZE` and `HASH` write the digest, `PAD` and `HASH` the lengths, `CLRERR` the
sticky bits and `ERRINFO`. -/
theorem execIgnoresRecords_of_succeeds {s t : State} {i : Instr} (h : Succeeds s i t) :
    ∃ r, ExecIgnoresRecords i s t.lanes t.msg none r := by
  cases h with
  | init => exact ⟨{}, fun st _ _ _ _ => ⟨st.sticky, exec_eq_of_succeeds .init, fun _ => rfl⟩⟩
  | permute => exact ⟨{}, fun st _ _ _ _ => ⟨st.sticky, exec_eq_of_succeeds .permute, fun _ => rfl⟩⟩
  | squeeze =>
    exact ⟨{ digest := some (squeeze s.lanes) },
      fun st _ _ _ _ => ⟨st.sticky, exec_eq_of_succeeds .squeeze, fun _ => rfl⟩⟩
  | absorb h => exact ⟨{}, fun st _ _ _ _ => ⟨st.sticky, exec_eq_of_succeeds (.absorb h), fun _ => rfl⟩⟩
  | clrerr =>
    exact ⟨{ bit := fun _ => some false, info := some 0 },
      fun _ _ _ _ _ => ⟨Sticky.clear, exec_eq_of_succeeds .clrerr, Sticky.has_clear⟩⟩
  | @pad len h =>
    refine ⟨{ mlen := some (BitVec.ofNat 24 len), plen := some (BitVec.ofNat 24 (paddedLength len)) },
      fun st e d m p => ⟨st.sticky, ?_, fun _ => rfl⟩⟩
    have hexec := exec_eq_of_succeeds (s := s.withRecords st e d m p) (.pad h)
    rw [State.padBuffer_withRecords] at hexec
    rw [hexec]
    apply congrArg
    apply State.ext <;> simp [Status.succeed]
  | @hash len h =>
    refine ⟨{ digest := some ((s.padBuffer len).hashBuffer (blockCount len)).digest
              mlen := some (BitVec.ofNat 24 len)
              plen := some (BitVec.ofNat 24 (paddedLength len)) }, fun st e d m p => ⟨st.sticky, ?_, fun _ => rfl⟩⟩
    have hexec := exec_eq_of_succeeds (s := s.withRecords st e d m p) (.hash h)
    rw [State.padBuffer_withRecords, State.hashBuffer_withRecords] at hexec
    rw [hexec]
    apply congrArg
    apply State.ext <;> simp [Status.succeed]

/-- Settles O41: an error and a success of a command each write what they write, whatever the records hold. -/
theorem noCommandReadsTheRecords : Obligations.NoCommandReadsTheRecords := by
  intro i s
  rcases succeeds_or_fails s i with ⟨t, hsucceeds⟩ | ⟨c, hfails⟩
  · obtain ⟨r, h⟩ := execIgnoresRecords_of_succeeds hsucceeds
    exact ⟨t.lanes, t.msg, none, r.bit, r.info, r.digest, r.mlen, r.plen, h⟩
  · exact ⟨s.lanes, s.msg, some c, _, _, _, _, _, execIgnoresRecords_of_fails hfails⟩

end Sys2Proof.Machine

/-! PROOFS of the family 42_padding.md: the function `pad` (R100, R103, R104) and the command `PAD` (R107). -/

namespace Sys2Proof.Machine

/-! ### The function `pad`: the message, then bytes that its length fixes -/

/-- The padding of a message of length `len` on its own: the two marks OR-ed into zero bytes (R100). -/
def padding (len : Nat) : List Byte :=
  ((zeros (padCount len)).modify 0 (· ||| padFirst)).modify (padCount len - 1) (· ||| padLast)

/-- Both marks fall behind the message. -/
theorem padMessage_eq_append (M : List Byte) : padMessage M = M ++ padding M.length := by
  have hfirst : (M ++ zeros (padCount M.length)).modify M.length (· ||| padFirst) =
      M ++ (zeros (padCount M.length)).modify 0 (· ||| padFirst) := List.modifyTailIdx_add _ 0 M _
  rw [padMessage, hfirst, Nat.add_sub_assoc (padCount_pos M.length)]
  exact List.modifyTailIdx_add _ _ M _

@[simp] theorem padding_length (len : Nat) : (padding len).length = padCount len := by simp [padding, zeros]

theorem padMessage_length (M : List Byte) : (padMessage M).length = paddedLength M.length := by
  rw [padMessage_eq_append, List.length_append, padding_length, paddedLength_eq]

/-- The bytes of `padding` are those the buffer holds after `State.padBuffer`. -/
theorem padding_getElem (len i : Nat) (h : i < (padding len).length) : (padding len)[i] = padByte len (len + i) := by
  have hfirst : len + i = len ↔ 0 = i := by omega
  have hlast : len + i = paddedLength len - 1 ↔ padCount len - 1 = i := by
    have hpos := padCount_pos len
    rw [paddedLength_eq]
    omega
  simp only [padding, List.getElem_modify, zeros, List.getElem_replicate, padByte, hfirst, hlast]
  split_ifs <;> rfl

/-- The bytes of the padded message behind the message. -/
theorem padMessage_getElem?_of_le (M : List Byte) {i : Nat} (hle : M.length ≤ i) (hlt : i < paddedLength M.length) :
    (padMessage M)[i]? = some (padByte M.length i) := by
  have hi : i - M.length < (padding M.length).length := by
    rw [paddedLength_eq] at hlt
    rw [padding_length]
    omega
  rw [padMessage_eq_append, List.getElem?_append_right hle, List.getElem?_eq_getElem hi, padding_getElem,
    Nat.add_sub_cancel' hle]

/-- Settles O19: the message is copied by `padMessage_eq_append`, and each byte behind it is `padByte`. -/
theorem paddingFollowsItsRule : Obligations.PaddingFollowsItsRule := by
  intro M
  refine ⟨padCount M.length, rfl, padCount_pos _, padCount_le _, ?_, ?_, ?_⟩
  · rw [padMessage_length, paddedLength_eq]
  · intro i hi
    rw [padMessage_eq_append, List.getElem?_append_left hi]
  · intro i hle hlt
    rw [← paddedLength_eq] at hlt ⊢
    exact padMessage_getElem?_of_le M hle hlt

/-! ### The two marks (R103) -/

/-- A message one byte short of a block has one padding byte, which takes both marks. -/
theorem padding_of_mod_eq {len : Nat} (h : len % 136 = 135) : padding len = [0x81] := by
  have hone : padCount len = 1 := by simp [padCount, h]
  rw [padding, hone]
  rfl

/-- Two changes of list entries by functions that commute may be done in either order, also at one place. -/
theorem modify_comm_of_commute {α : Type*} {f g : α → α} (hfg : Function.Commute f g) (i j : Nat) (l : List α) :
    (l.modify i f).modify j g = (l.modify j g).modify i f := by
  by_cases h : i = j
  · subst h
    rw [List.modify_modify_eq, List.modify_modify_eq, hfg.comp_eq]
  · exact List.modify_modify_ne f g l h

/-- Two OR operations on one byte commute. -/
theorem or_commute (u v : Byte) : Function.Commute (· ||| u) (· ||| v) := by
  intro b
  show b ||| v ||| u = b ||| u ||| v
  rw [BitVec.or_assoc, BitVec.or_comm v, ← BitVec.or_assoc]

/-- Settles O20: one padding byte holds both marks, and OR-ing them in commutes. -/
theorem paddingMarksCommute : Obligations.PaddingMarksCommute := by
  constructor
  · intro M h
    rw [padMessage_eq_append, padding_of_mod_eq h]
  · intro M
    exact modify_comm_of_commute (or_commute padFirst padLast) _ _ _

/-! ### The command `PAD` (R107) -/

theorem State.memRead_add (s : State) (a m n : Nat) : s.memRead a (m + n) = s.memRead a m ++ s.memRead (a + m) n := by
  simp [State.memRead, List.range_add, Nat.add_assoc]

/-- The message and what lies behind the padding stay. -/
theorem State.msgByte_padBuffer_of_outside (s : State) {len a : Nat} (h : a < len ∨ paddedLength len ≤ a) :
    (s.padBuffer len).msgByte a = s.msgByte a := by
  rw [State.msgByte_padBuffer, if_neg]
  omega

/-- The padding in the buffer is the padding of the function `pad`, whatever the buffer held. -/
theorem State.memRead_padBuffer_padding (s : State) (len : Nat) :
    (s.padBuffer len).memRead len (padCount len) = padding len := by
  apply List.ext_getElem
  · simp
  · intro i _ hi
    have hin : len ≤ len + i ∧ len + i < paddedLength len := by
      rw [padding_length] at hi
      rw [paddedLength_eq]
      omega
    rw [State.memRead_getElem, padding_getElem, State.msgByte_padBuffer, if_pos hin]

/-- What the padding of the buffer computes: `MSG[0 .. plen) = pad(MSG[0 .. len))`. -/
theorem State.memRead_padBuffer (s : State) (len : Nat) :
    (s.padBuffer len).memRead 0 (paddedLength len) = padMessage (s.memRead 0 len) := by
  have hmessage : (s.padBuffer len).memRead 0 len = s.memRead 0 len := State.memRead_congr fun i hi =>
    s.msgByte_padBuffer_of_outside (.inl (by omega))
  rw [paddedLength_eq, State.memRead_add, hmessage, Nat.zero_add, State.memRead_padBuffer_padding,
    padMessage_eq_append, State.memRead_length]

/-- The lengths of a message that fits and of its padding fit the registers. -/
theorem State.padBuffer_lengths (s : State) {len : Nat} (h : paddedLength len ≤ s.cfg.msgCap) :
    (s.padBuffer len).mlen.toNat = len ∧ (s.padBuffer len).plen.toNat = paddedLength len := by
  have hcap := msgCap_lt s.cfg
  have hlen := paddedLength_eq len
  rw [State.padBuffer_mlen, State.padBuffer_plen, BitVec.toNat_ofNat, BitVec.toNat_ofNat]
  exact ⟨Nat.mod_eq_of_lt (by omega), Nat.mod_eq_of_lt (by omega)⟩

/-- The padding changes the buffer and the two lengths. -/
theorem State.padBuffer_frame (s : State) (len : Nat) : s.padBuffer len =
    { s with msg := (s.padBuffer len).msg, mlen := (s.padBuffer len).mlen, plen := (s.padBuffer len).plen } := by
  apply State.ext <;> simp

/-- Settles O22: an error raises `LengthOutOfRange`; a success is `State.padBuffer`, whose rules stand above. -/
theorem padCommandPadsTheBuffer : Obligations.PadCommandPadsTheBuffer := by
  intro s len
  refine ⟨encode_pad, fun hle => exec_eq_of_fails (.pad hle), ?_⟩
  intro hlt
  have hfits : paddedLength len ≤ s.cfg.msgCap := not_lt.1 ((paddedLength_le_msgCap_iff s.cfg len).2 hlt)
  obtain ⟨hmlen, hplen⟩ := s.padBuffer_lengths hfits
  refine ⟨(s.padBuffer len).complete, exec_eq_of_succeeds (.pad hlt), s.memRead_padBuffer len,
    fun _ => s.msgByte_padBuffer_of_outside, rfl, hfits, hmlen, hplen, ?_⟩
  exact congrArg State.complete (s.padBuffer_frame len)

/-! ### What the padding depends on (R104) -/

theorem padMessage_drop (M : List Byte) : (padMessage M).drop M.length = padding M.length := by
  rw [padMessage_eq_append, List.drop_left]

/-- Behind the message a successful `PAD` leaves `padByte`, in which the state does not occur. -/
theorem msgByte_of_exec_pad {s t : State} {len a : Nat} (hlt : len < s.cfg.msgCap) (h : exec (.pad len) s = .next t)
    (hle : len ≤ a) (ha : a < paddedLength len) : t.msgByte a = padByte len a := by
  rw [exec_eq_of_succeeds (.pad hlt)] at h
  injection h with h
  rw [← h, State.msgByte_complete, State.msgByte_padBuffer, if_pos ⟨hle, ha⟩]

/-- Settles O23: the padding is `padding` of the length, and in the buffer `padByte` of the length and the offset. -/
theorem paddingDependsOnTheLengthAlone : Obligations.PaddingDependsOnTheLengthAlone := by
  constructor
  · intro M N h
    rw [padMessage_drop, padMessage_drop, h]
  · intro s s' t t' len hlt hlt' h h' a hle ha
    rw [msgByte_of_exec_pad hlt h hle ha, msgByte_of_exec_pad hlt' h' hle ha]

end Sys2Proof.Machine

/-! PROOFS of the family 43_sponge.md: the functions `absorbBlock` (R116 to R118) and `squeeze` (R120, R121), the
commands `INIT` (R122), `ABSORB` (R123) and `SQUEEZE` (R124). -/

namespace Sys2Proof.Machine

open Sys2Proof.Claims

/-! ### The function `absorbBlock`, lane by lane and byte by byte -/

theorem absorbBlock_of_length_ne (S : Lanes) {blk : List Byte} (h : blk.length ≠ 136) :
    absorbBlock S blk = .error .invalidBlockSize := by
  rw [absorbBlock, if_pos h]

theorem absorbBlock_of_length_eq (S : Lanes) {blk : List Byte} (h : blk.length = 136) :
    absorbBlock S blk = .ok (xorBlock S blk) :=
  absorbBlock_eq_ok.2 ⟨h, rfl⟩

theorem xorBlock_getElem_rate (S : Lanes) (blk : List Byte) {i : Fin 25} (hi : i.val < 17) :
    (xorBlock S blk)[i] = S[i] ^^^ le64 ((blk.drop (8 * i.val)).take 8) := by
  rw [xorBlock_getElem, if_pos hi]

theorem xorBlock_getElem_capacity (S : Lanes) (blk : List Byte) {i : Fin 25} (hi : 17 ≤ i.val) :
    (xorBlock S blk)[i] = S[i] := by
  rw [xorBlock_getElem, if_neg (not_lt.2 hi)]

/-- The eight bytes of a block that meet lane `i` are its bytes `8i .. 8i+7`, in this order. -/
theorem laneByte_le64_word {blk : List Byte} {i k : Nat} (hi : 8 * i + 8 ≤ blk.length) (hk : k < 8) :
    laneByte (le64 ((blk.drop (8 * i)).take 8)) k = blk[8 * i + k] := by
  have hl : ((blk.drop (8 * i)).take 8).length = 8 := by
    rw [List.length_take, List.length_drop]
    omega
  rw [laneByte_le64 _ hl k hk, List.getElem_take, List.getElem_drop]

/-- R116's last sentence: each byte of the block is XORed into one byte of one lane. -/
theorem laneByte_xorBlock (S : Lanes) {blk : List Byte} (hl : blk.length = 136) {i : Fin 25} (hi : i.val < 17) {k : Nat}
    (hk : k < 8) : laneByte (xorBlock S blk)[i] k = laneByte S[i] k ^^^ blk[8 * i.val + k] := by
  rw [xorBlock_getElem_rate S blk hi, laneByte_xor, laneByte_le64_word (by omega) hk]

/-- Settles O25: the lanes are those of `xorBlock`, the bytes follow from them. -/
theorem absorbBlockFollowsItsRule : Obligations.AbsorbBlockFollowsItsRule := by
  intro S blk
  refine ⟨absorbBlock_of_length_ne S, ?_⟩
  intro hl
  refine ⟨xorBlock S blk, absorbBlock_of_length_eq S hl, fun _ => xorBlock_getElem_rate S blk,
    fun _ => xorBlock_getElem_capacity S blk, ?_⟩
  intro i hi k hk b hb
  obtain ⟨_, rfl⟩ := List.getElem?_eq_some_iff.1 hb
  exact laneByte_xorBlock S hl hi hk

/-! ### Absorbing is an XOR (R117, R118) -/

/-- Lanes are equal when the bytes of the rate and the lanes of the capacity are. -/
theorem Lanes.ext_rate_capacity {S T : Lanes}
    (hrate : ∀ i : Fin 25, i.val < 17 → ∀ k < 8, laneByte S[i] k = laneByte T[i] k)
    (hcapacity : ∀ i : Fin 25, 17 ≤ i.val → S[i] = T[i]) : S = T := by
  apply Lanes.ext
  intro i
  rcases Nat.lt_or_ge i.val 17 with hi | hi
  · exact lane_ext (hrate i hi)
  · exact hcapacity i hi

theorem xorBlock_zeros (S : Lanes) : xorBlock S (List.replicate 136 0) = S := by
  apply Lanes.ext_rate_capacity
  · intro i hi k hk
    rw [laneByte_xorBlock S List.length_replicate hi hk, List.getElem_replicate]
    exact BitVec.xor_zero
  · intro i hi
    exact xorBlock_getElem_capacity S _ hi

/-- R118 on the effect of `absorbBlock`. -/
theorem xorBlock_xorBlock (S : Lanes) {b1 b2 : List Byte} (h1 : b1.length = 136) (h2 : b2.length = 136) :
    xorBlock (xorBlock S b1) b2 = xorBlock S (List.zipWith (· ^^^ ·) b1 b2) := by
  have hzip : (List.zipWith (· ^^^ ·) b1 b2).length = 136 := by simp [h1, h2]
  apply Lanes.ext_rate_capacity
  · intro i hi k hk
    rw [laneByte_xorBlock _ h2 hi hk, laneByte_xorBlock S h1 hi hk, laneByte_xorBlock S hzip hi hk,
      List.getElem_zipWith, BitVec.xor_assoc]
  · intro i hi
    rw [xorBlock_getElem_capacity _ b2 hi, xorBlock_getElem_capacity S b1 hi, xorBlock_getElem_capacity S _ hi]

theorem zipWith_xor_self (bs : List Byte) : List.zipWith (· ^^^ ·) bs bs = List.replicate bs.length 0 := by
  simp [List.zipWith_self, List.map_const']

/-- A block absorbed twice is the zero block absorbed. -/
theorem xorBlock_xorBlock_self (S : Lanes) {blk : List Byte} (hl : blk.length = 136) :
    xorBlock (xorBlock S blk) blk = S := by
  rw [xorBlock_xorBlock S hl hl, zipWith_xor_self, hl, xorBlock_zeros]

/-- Settles O26: `xorBlock` keeps the capacity, undoes itself and ignores zeros. -/
theorem absorbIsAnXorOfTheRate : Obligations.AbsorbIsAnXorOfTheRate := by
  intro S T blk h
  obtain ⟨hl, rfl⟩ := absorbBlock_eq_ok.1 h
  refine ⟨fun i hi _ => xorBlock_getElem_capacity S blk hi, ?_, ?_⟩
  · rw [absorbBlock_of_length_eq _ hl, xorBlock_xorBlock_self S hl]
  · rw [absorbBlock_of_length_eq S List.length_replicate, xorBlock_zeros]

/-- Settles O27: both blocks have 136 bytes, so their XOR has, and absorbs as they do. -/
theorem twoAbsorbsAbsorbTheXor : Obligations.TwoAbsorbsAbsorbTheXor := by
  intro S T U b1 b2 hT hU
  obtain ⟨h1, rfl⟩ := absorbBlock_eq_ok.1 hT
  obtain ⟨h2, rfl⟩ := absorbBlock_eq_ok.1 hU
  exact absorbBlock_eq_ok.2 ⟨by simp [h1, h2], xorBlock_xorBlock S h1 h2⟩

/-! ### The function `squeeze` (R120, R121) -/

theorem squeeze_getElem_nat (S : Lanes) {b : Nat} (hb : b < 32) : (squeeze S)[b] = laneByte S[b / 8] (b % 8) :=
  squeeze_getElem S ⟨b, hb⟩

theorem squeeze_getElem_byte (S : Lanes) (j : Fin 4) (k : Fin 8) :
    (squeeze S)[8 * j.val + k.val] = laneByte S[j.val] k.val := by
  have hlane : (8 * j.val + k.val) / 8 = j.val := by omega
  have hbyte : (8 * j.val + k.val) % 8 = k.val := by omega
  simp only [squeeze_getElem_nat, hlane, hbyte]

theorem squeeze_toList (S : Lanes) :
    (squeeze S).toList = bytesLe S[0] ++ bytesLe S[1] ++ bytesLe S[2] ++ bytesLe S[3] := by
  rw [squeeze, Vector.toList_ofFn]
  rfl

theorem squeeze_congr {S T : Lanes} (h : ∀ j : Fin 4, S[j.val] = T[j.val]) : squeeze S = squeeze T := by
  apply Vector.ext
  intro b hb
  have hlane : S[b / 8] = T[b / 8] := h ⟨b / 8, by omega⟩
  rw [squeeze_getElem_nat S hb, squeeze_getElem_nat T hb, hlane]

/-- Settles O28: the digest as four lanes, as its bytes, and as a function of the four lanes. -/
theorem squeezeReadsFourLanesLowByteFirst : Obligations.SqueezeReadsFourLanesLowByteFirst :=
  ⟨squeeze_toList, squeeze_getElem_byte, fun _ _ => squeeze_congr⟩

/-- Lanes that held zero hold the block's own bytes after it is absorbed. -/
theorem squeeze_xorBlock_zero {blk : List Byte} (hl : blk.length = 136) :
    (squeeze (xorBlock Lanes.zero blk)).toList = blk.take 32 := by
  apply List.ext_getElem
  · simp [hl]
  · intro b hb _
    rw [Vector.length_toList] at hb
    have hbyte := laneByte_xorBlock Lanes.zero hl (i := ⟨b / 8, by omega⟩) (show b / 8 < 17 by omega)
      (Nat.mod_lt b (by decide))
    have hzero : laneByte 0 (b % 8) = 0 := by simp [laneByte]
    rw [Lanes.zero_getElem, hzero] at hbyte
    simp only [Nat.div_add_mod] at hbyte
    rw [Vector.getElem_toList, squeeze_getElem_nat _ hb, List.getElem_take]
    exact hbyte.trans BitVec.zero_xor

theorem bigEndian_append (as bs : List Byte) :
    bigEndian (as ++ bs) = bigEndian as * 2 ^ (8 * bs.length) + bigEndian bs := by
  induction bs using List.reverseRecOn with
  | nil => simp [bigEndian]
  | append_singleton bs b ih =>
    rw [← List.append_assoc, bigEndian_concat, ih, bigEndian_concat, List.length_append, List.length_singleton]
    ring

theorem bigEndian_squeeze (S : Lanes) : bigEndian (squeeze S).toList =
    (bswap64 S[0]).toNat * 2 ^ 192 + (bswap64 S[1]).toNat * 2 ^ 128 + (bswap64 S[2]).toNat * 2 ^ 64 +
      (bswap64 S[3]).toNat := by
  rw [squeeze_toList]
  simp only [bigEndian_append, bigEndian_bytesLe, bytesLe_length]
  ring

/-- Settles O29: a zero state absorbs the block itself, and each lane of the digest reads as its byte-swapped number. -/
theorem squeezeUndoesAbsorb : Obligations.SqueezeUndoesAbsorb := by
  refine ⟨?_, bigEndian_squeeze⟩
  intro blk T h
  obtain ⟨hl, rfl⟩ := absorbBlock_eq_ok.1 h
  exact squeeze_xorBlock_zero hl

/-! ### The commands `INIT`, `ABSORB` and `SQUEEZE` (R122, R123, R124) -/

/-- Settles O30: `INIT` cannot fail, and its success is what R122 says. -/
theorem initCommandZeroesTheLanes : Obligations.InitCommandZeroesTheLanes :=
  ⟨encode_init, by decide, Lanes.zero_getElem, fun _ => exec_eq_of_succeeds .init⟩

/-- A part of a read of the buffer is a read of the buffer. -/
theorem State.take_drop_memRead (s : State) {a n d m : Nat} (h : d + m ≤ n) :
    ((s.memRead a n).drop d).take m = s.memRead (a + d) m := by
  apply List.ext_getElem
  · rw [List.length_take, List.length_drop, State.memRead_length, State.memRead_length]
    omega
  · intro i _ _
    rw [List.getElem_take, List.getElem_drop, State.memRead_getElem, State.memRead_getElem, Nat.add_assoc]

theorem xorBlock_memRead_getElem (s : State) (a : Nat) (i : Fin 25) : (xorBlock s.lanes (s.memRead a 136))[i] =
    if i.val < 17 then s.lanes[i] ^^^ le64 (s.memRead (a + 8 * i.val) 8) else s.lanes[i] := by
  rw [xorBlock_getElem]
  split_ifs with hi
  · rw [s.take_drop_memRead (by omega)]
  · rfl

/-- Settles O31: the two errors and the success of `ABSORB`, whose block always has 136 bytes. -/
theorem absorbCommandXorsOneSlot : Obligations.AbsorbCommandXorsOneSlot := by
  intro s k n
  refine ⟨encode_absorb, fun hn => exec_eq_of_fails (.absorbLength hn), ?_, ?_⟩
  · rintro rfl hk
    exact exec_eq_of_fails (.absorbSlot hk)
  · rintro rfl hk
    exact ⟨xorBlock s.lanes (s.memRead (136 * k) 136), absorbBlock_of_length_eq _ (s.memRead_length _ _),
      xorBlock_memRead_getElem s (136 * k), exec_eq_of_succeeds (.absorb hk)⟩

/-- Settles O32: `SQUEEZE` cannot fail, and its success is what R124 says. -/
theorem squeezeCommandTakesTheDigest : Obligations.SqueezeCommandTakesTheDigest :=
  ⟨encode_squeeze, fun s => ⟨exec_eq_of_succeeds .squeeze, squeeze_getElem_byte s.lanes⟩⟩

end Sys2Proof.Machine

/-! PROOFS of the family 44_hash_pipeline.md: the function `hash` (R135) and the command `HASH` (R137). -/

namespace Sys2Proof.Machine

/-! ### The function `hash`: its blocks and its states (R135) -/

/-- Every block of a sequence of whole blocks has 136 bytes. -/
theorem blockOf_length {P : List Byte} {n b : Nat} (hP : P.length = 136 * n) (hb : b < n) :
    (blockOf P b).length = 136 := by
  rw [blockOf, List.length_take, List.length_drop, hP]
  simp only [blockOffset, rate]
  omega

theorem blockOf_padMessage_length (M : List Byte) {b : Nat} (hb : b < blockCount M.length) :
    (blockOf (padMessage M) b).length = 136 :=
  blockOf_length (padMessage_length M) hb

/-- Settles O33: the states are those of the sponge loop, and no block of the padded message is cut short. -/
theorem hashIsPadAbsorbPermuteSqueeze : Obligations.HashIsPadAbsorbPermuteSqueeze := by
  intro M
  refine ⟨padMessage_length M, spongeLoop Lanes.zero (blockOf (padMessage M)), spongeLoop_zero _ _, ?_, rfl⟩
  intro b hb
  exact ⟨_, absorbBlock_of_length_eq _ (blockOf_padMessage_length M hb), spongeLoop_succ _ _ b⟩

/-! ### The command `HASH` (R137) -/

/-- The blocks of bytes read from the buffer are the buffer's own slots. -/
theorem State.blockOf_memRead (s : State) {n b : Nat} (hb : b < n) :
    blockOf (s.memRead 0 (rate * n)) b = s.memRead (blockOffset b) rate := by
  have hinside : blockOffset b + rate ≤ rate * n := by
    simp only [blockOffset, rate]
    omega
  rw [blockOf, s.take_drop_memRead hinside, Nat.zero_add]

/-- The sponge loop over the padded buffer squeezes the hash of the message. -/
theorem State.digest_hashBuffer_padBuffer (s : State) (len : Nat) :
    ((s.padBuffer len).hashBuffer (blockCount len)).digest = hashMessage (s.memRead 0 len) := by
  have hblocks : ∀ b < blockCount len,
      (s.padBuffer len).memRead (blockOffset b) rate = blockOf (padMessage (s.memRead 0 len)) b := by
    intro b hb
    rw [← State.memRead_padBuffer, paddedLength, State.blockOf_memRead _ hb]
  rw [State.hashBuffer_digest, spongeLoop_congr _ hblocks, hashMessage, State.memRead_length]

theorem State.msgByte_hashBuffer (s : State) (n a : Nat) : (s.hashBuffer n).msgByte a = s.msgByte a :=
  State.msgByte_congr (s.hashBuffer_msg n) (s.hashBuffer_draw n) a

/-- Hashing leaves the padded message in the buffer. -/
theorem State.memRead_hashBuffer_padBuffer (s : State) (len n : Nat) :
    ((s.padBuffer len).hashBuffer n).memRead 0 (paddedLength len) = padMessage (s.memRead 0 len) :=
  (State.memRead_congr fun _ _ => State.msgByte_hashBuffer _ n _).trans (s.memRead_padBuffer len)

/-- Beyond what the padding changes, `HASH` changes the lanes and the digest. -/
theorem State.hashBuffer_padBuffer_frame (s : State) (len n : Nat) : (s.padBuffer len).hashBuffer n =
    { s with lanes := Lanes.zero, msg := (s.padBuffer len).msg, mlen := (s.padBuffer len).mlen,
             plen := (s.padBuffer len).plen, digest := ((s.padBuffer len).hashBuffer n).digest } := by
  apply State.ext <;> simp

/-- Settles O34: an error raises `LengthOutOfRange`; a success pads the buffer as `PAD` does, and hashes what it then
holds. -/
theorem hashCommandComputesTheHash : Obligations.HashCommandComputesTheHash := by
  intro s len
  refine ⟨encode_hash, fun hle => exec_eq_of_fails (.hash hle), ?_⟩
  intro hlt
  have hfits : paddedLength len ≤ s.cfg.msgCap := not_lt.1 ((paddedLength_le_msgCap_iff s.cfg len).2 hlt)
  obtain ⟨hmlen, hplen⟩ := s.padBuffer_lengths hfits
  refine ⟨((s.padBuffer len).hashBuffer (blockCount len)).complete, exec_eq_of_succeeds (.hash hlt),
    s.digest_hashBuffer_padBuffer len, s.memRead_hashBuffer_padBuffer len (blockCount len), ?_, rfl,
    hfits, hmlen, hplen, ?_⟩
  · intro a ha
    rw [State.msgByte_complete, State.msgByte_hashBuffer, s.msgByte_padBuffer_of_outside ha]
  · exact congrArg State.complete (s.hashBuffer_padBuffer_frame len (blockCount len))

end Sys2Proof.Machine

/-! PROOFS of the family 45_system_host.md: the command `CLRERR` (R150), the data transactions of the host port (R151 to
R156) and command issue (R157). -/

namespace Sys2Proof.Machine

open Sys2Proof.Claims

/-! ### The command `CLRERR` (R150) -/

/-- `STATUS` with its error record cleared reads 0. -/
theorem Status.word_clear : ({ err := none, sticky := Sticky.clear } : Status).word = 0 := by decide

/-- Settles O38: `CLRERR` cannot fail, and its success is what R150 says. -/
theorem clrerrClearsTheErrorRecord : Obligations.ClrerrClearsTheErrorRecord :=
  ⟨encode_clrerr, by decide, fun _ => ⟨_, exec_eq_of_succeeds .clrerr, Status.word_clear, rfl, rfl⟩⟩

/-! ### Which transactions the map permits at the offset of an element (R41) -/

section

/-- An offset of 24 bits holds its number. -/
theorem offset_toNat {n : Nat} (h : n < 2 ^ 24) : (BitVec.ofNat 24 n).toNat = n := by
  rw [BitVec.toNat_ofNat, Nat.mod_eq_of_lt h]

variable {c : Config} {off : BitVec 24}

/-- The map's words for a lane's offset are those of R153; only these are linear arithmetic. -/
theorem lane_offset_iff : (∃ i < 25, off.toNat = 8 * i) ↔ off.toNat % 8 = 0 ∧ off.toNat ≤ 0x0000C0 := by
  constructor
  · rintro ⟨i, hi, ho⟩
    omega
  · rintro ⟨hmod, hle⟩
    exact ⟨off.toNat / 8, by omega, by omega⟩

theorem readPermitted_lane_iff {i : Fin 25} (ho : off.toNat = 8 * i.val) (size : AccessSize) :
    readPermitted c off size ↔ size = .eight := by
  cases size with
  | one => simp only [readPermitted, reduceCtorEq, iff_false]; omega
  | four => simp only [readPermitted, reduceCtorEq, iff_false]; omega
  | eight => exact iff_of_true ⟨i, i.isLt, ho⟩ rfl

theorem readPermitted_reg_iff {r : CtlReg} (ho : off.toNat = r.offset) (size : AccessSize) :
    readPermitted c off size ↔ size = .four := by
  cases size with
  | one => cases r <;> simp [readPermitted, ho, CtlReg.offset]
  | four => cases r <;> simp [readPermitted, ho, CtlReg.offset]
  | eight =>
    rw [readPermitted, lane_offset_iff, ho]
    cases r <;> simp [CtlReg.offset]

theorem readPermitted_digest_iff {b : Fin 32} (ho : off.toNat = 0x120 + b.val) (size : AccessSize) :
    readPermitted c off size ↔ size = .one := by
  cases size with
  | one => exact iff_of_true (.inl (by omega)) rfl
  | four => simp only [readPermitted, reduceCtorEq, iff_false]; omega
  | eight => simp only [readPermitted, lane_offset_iff, reduceCtorEq, iff_false]; omega

theorem readPermitted_msg_iff {a : Nat} (ho : off.toNat = 0x1000 + a) (size : AccessSize) :
    readPermitted c off size ↔ a < c.msgCap ∧ size = .one := by
  cases size with
  | one => simp only [readPermitted, and_true]; omega
  | four => simp only [readPermitted, reduceCtorEq, and_false, iff_false]; omega
  | eight => simp only [readPermitted, lane_offset_iff, reduceCtorEq, and_false, iff_false]; omega

theorem writePermitted_lane_iff {i : Fin 25} (ho : off.toNat = 8 * i.val) (v : Data) :
    writePermitted c off v ↔ ∃ u, v = .b8 u := by
  cases v with
  | b1 u => simp only [writePermitted, reduceCtorEq, exists_const, iff_false]; omega
  | b4 u => simp only [writePermitted, reduceCtorEq, exists_const, iff_false]; omega
  | b8 u => exact iff_of_true ⟨i, i.isLt, ho⟩ ⟨u, rfl⟩

theorem writePermitted_msg_iff {a : Nat} (ho : off.toNat = 0x1000 + a) (v : Data) :
    writePermitted c off v ↔ a < c.msgCap ∧ ∃ u, v = .b1 u := by
  cases v with
  | b1 u => simp [writePermitted, ho]
  | b4 u => simp only [writePermitted, reduceCtorEq, exists_const, and_false, iff_false]; omega
  | b8 u => simp only [writePermitted, lane_offset_iff, reduceCtorEq, exists_const, and_false, iff_false]; omega

/-- Between the lanes and the buffer nothing can be written but the command word. -/
theorem not_writePermitted_of_between (h1 : 0x0000C8 ≤ off.toNat) (h2 : off.toNat < 0x001000) (h3 : off.toNat ≠ 0x000100)
    (v : Data) : ¬ writePermitted c off v := by
  cases v with
  | b1 u => simp only [writePermitted]; omega
  | b4 u => exact h3
  | b8 u => simp only [writePermitted, lane_offset_iff]; omega

end

/-! ### A transaction served from the port -/

theorem step_read (s : State) (rest : List HostEvent) (off : BitVec 24) (size : AccessSize) :
    step { s with port := .read off size :: rest } =
      .next { s with port := rest, response := some (s.hostRead off size) } := rfl

theorem step_write (s : State) (rest : List HostEvent) (off : BitVec 24) (v : Data) :
    step { s with port := .write off v :: rest } = (s.take rest).hostWrite off v := rfl

/-- The reads of a lane, of a register, of a digest byte and of a buffer byte, and every other read. -/
theorem hostRead_cases (s : State) (off : BitVec 24) (size : AccessSize) :
    (∃ i : Fin 25, off.toNat = 8 * i.val ∧ size = .eight ∧ s.hostRead off size = .data (.b8 s.lanes[i])) ∨
    (∃ r, off.toNat = CtlReg.offset r ∧ size = .four ∧ s.hostRead off size = .data (.b4 (s.readReg r))) ∨
    (∃ b : Fin 32, off.toNat = 0x120 + b.val ∧ size = .one ∧ s.hostRead off size = .data (.b1 s.digest[b])) ∨
    (∃ a, off.toNat = 0x1000 + a ∧ a < s.cfg.msgCap ∧ size = .one ∧
      s.hostRead off size = .data (.b1 (s.msgByte a))) ∨
    s.hostRead off size = .busError := by
  unfold State.hostRead
  cases hl : locate s.cfg off.toNat with
  | none => exact .inr (.inr (.inr (.inr rfl)))
  | some e =>
    rcases locate_cases hl with ⟨i, ho, rfl⟩ | ⟨ho, rfl⟩ | ⟨r, ho, rfl⟩ | ⟨b, ho, rfl⟩ | ⟨a, ho, ha, rfl⟩ <;> cases size
    case inl.eight => exact .inl ⟨i, ho, rfl, rfl⟩
    case inr.inr.inl.four => exact .inr (.inl ⟨r, ho, rfl, rfl⟩)
    case inr.inr.inr.inl.one => exact .inr (.inr (.inl ⟨b, ho, rfl, rfl⟩))
    case inr.inr.inr.inr.one => exact .inr (.inr (.inr (.inl ⟨a, ho, ha, rfl, rfl⟩)))
    all_goals exact .inr (.inr (.inr (.inr rfl)))

/-- A read that the map does not permit is none of the four that are served. -/
theorem step_read_denied (s : State) (rest : List HostEvent) {off : BitVec 24} {size : AccessSize}
    (h : ¬ readPermitted s.cfg off size) :
    step { s with port := .read off size :: rest } = .next { s with port := rest, response := some .busError } := by
  rw [step_read]
  rcases hostRead_cases s off size with
    ⟨i, ho, rfl, -⟩ | ⟨r, ho, rfl, -⟩ | ⟨b, ho, rfl, -⟩ | ⟨a, ho, ha, rfl, -⟩ | hbus
  · exact absurd ((readPermitted_lane_iff ho _).2 rfl) h
  · exact absurd ((readPermitted_reg_iff ho _).2 rfl) h
  · exact absurd ((readPermitted_digest_iff ho _).2 rfl) h
  · exact absurd ((readPermitted_msg_iff ho _).2 ⟨ha, rfl⟩) h
  · rw [hbus]

/-- A write that the map does not permit is none of the three that are served. -/
theorem step_write_denied (s : State) (rest : List HostEvent) {off : BitVec 24} {v : Data}
    (h : ¬ writePermitted s.cfg off v) :
    step { s with port := .write off v :: rest } = .next { s with port := rest, response := some .busError } := by
  rw [step_write]
  rcases hostWrite_cases (s.take rest) off v with ⟨w, ho, rfl, -⟩ | ⟨i, u, ho, rfl, -⟩ | ⟨a, u, ho, ha, rfl, -⟩ | hbus
  · exact absurd ho h
  · exact absurd ((writePermitted_lane_iff ho _).2 ⟨u, rfl⟩) h
  · exact absurd ((writePermitted_msg_iff ho _).2 ⟨ha, u, rfl⟩) h
  · exact hbus

/-! ### Command issue (R157) -/

theorem State.issue_command {s u : State} {w : Word} {i : Instr} (hd : decode w = .command i) (hu : exec i s = .next u) :
    s.issue w = .next (u.respond .ok) := by
  rw [State.issue, hd]
  simp only [hu, respondOk]

theorem State.hostWrite_cmd (s : State) (w : Word) : s.hostWrite 0x000100 (.b4 w) = s.issue w := by
  have hl : locate s.cfg (0x000100 : BitVec 24).toNat = some .cmd := locate_cmd s.cfg
  simp only [State.hostWrite, hl]

/-- Settles O43: a 4-byte write to `CMD` is command issue, and the map permits no other write there. -/
theorem stepRunsTheDecodedCommand : Obligations.StepRunsTheDecodedCommand := by
  intro s rest w
  have hissue : step { s with port := .write 0x000100 (.b4 w) :: rest } = (s.take rest).issue w :=
    (step_write s rest _ _).trans (State.hostWrite_cmd _ w)
  refine ⟨?command, ?illegal, ?byte, ?lane⟩
  case command =>
    intro i hd
    obtain ⟨u, hu⟩ := exec_total i (s.take rest)
    exact ⟨u, hu, hissue.trans (State.issue_command hd hu)⟩
  case illegal =>
    intro v hd
    obtain ⟨rfl, -⟩ := (decode_eq_illegal_iff w v).1 hd
    exact hissue.trans (State.issue_illegal _ hd)
  case byte =>
    intro v
    exact step_write_denied s rest (by simp [writePermitted])
  case lane =>
    intro v
    exact step_write_denied s rest (mt lane_offset_iff.1 (by decide))

/-! ### One byte of the buffer (R151, R152) -/

/-- Every byte of the buffer has an offset, for every `MAX_BLOCKS`. -/
theorem msgOffset_lt {c : Config} {a : Nat} (h : a < c.msgCap) : 0x001000 + a < 2 ^ 24 := by
  have hslot := c.lastSlot.isLt
  simp only [Config.msgCap, Config.maxBlocks, rate] at h
  omega

theorem State.hostRead_msg (s : State) {off : BitVec 24} {a : Nat} (ho : off.toNat = 0x1000 + a) (h : a < s.cfg.msgCap) :
    s.hostRead off .one = .data (.b1 (s.msgByte a)) := by
  simp only [State.hostRead, ho, locate_msg h]

theorem State.hostWrite_msg (s : State) {off : BitVec 24} {a : Nat} (ho : off.toNat = 0x1000 + a) (h : a < s.cfg.msgCap)
    (v : Byte) : s.hostWrite off (.b1 v) = .next ((s.setByte a v).respond .ok) := by
  simp only [State.hostWrite, ho, locate_msg h]

/-- Settles O45: inside the buffer one byte is served, which `State.setByte` stores; the rest is not permitted. -/
theorem writeByteStoresOneByte : Obligations.WriteByteStoresOneByte := by
  intro s rest a
  refine ⟨?stored, ?outside, ?size⟩
  case stored =>
    intro ha v
    refine ⟨((s.take rest).setByte a v).respond .ok, ?_, ?_, ?_, rfl⟩
    · rw [step_write, State.hostWrite_msg (s.take rest) (offset_toNat (msgOffset_lt ha)) ha]
    · rw [State.msgByte_respond, State.msgByte_setByte, if_pos rfl]
    · intro b hb
      rw [State.msgByte_respond, State.msgByte_setByte, if_neg hb, State.take_msgByte]
  case outside =>
    intro ha hoff v
    refine step_write_denied s rest ?_
    rw [writePermitted_msg_iff (offset_toNat hoff)]
    exact fun hp => Nat.not_lt.2 ha hp.1
  case size =>
    intro ha v hv
    refine step_write_denied s rest ?_
    rw [writePermitted_msg_iff (offset_toNat (msgOffset_lt ha))]
    exact fun hp => hp.2.elim hv

/-- Settles O46: inside the buffer one byte is served, the rest is not permitted. -/
theorem readByteReturnsTheByte : Obligations.ReadByteReturnsTheByte := by
  intro s rest a
  refine ⟨?served, ?outside, ?size⟩
  case served =>
    intro ha
    rw [step_read, State.hostRead_msg s (offset_toNat (msgOffset_lt ha)) ha]
  case outside =>
    intro ha hoff size
    refine step_read_denied s rest ?_
    rw [readPermitted_msg_iff (offset_toNat hoff)]
    exact fun hp => Nat.not_lt.2 ha hp.1
  case size =>
    intro ha size hsize
    refine step_read_denied s rest ?_
    rw [readPermitted_msg_iff (offset_toNat (msgOffset_lt ha))]
    exact fun hp => hsize hp.2

/-! ### One lane (R153, R154) -/

theorem laneOffset_toNat (i : Fin 25) : (BitVec.ofNat 24 (8 * i.val)).toNat = 8 * i.val := offset_toNat (by omega)

theorem State.hostRead_lane (s : State) {off : BitVec 24} {i : Fin 25} (ho : off.toNat = 8 * i.val) :
    s.hostRead off .eight = .data (.b8 s.lanes[i]) := by
  simp only [State.hostRead, ho, locate_lane]

theorem State.hostWrite_lane (s : State) {off : BitVec 24} {i : Fin 25} (ho : off.toNat = 8 * i.val) (v : Lane) :
    s.hostWrite off (.b8 v) = .next ((s.setLane i v).respond .ok) := by
  simp only [State.hostWrite, ho, locate_lane]

/-- A lane read after a lane is written. -/
theorem State.setLane_lanes_getElem (s : State) (i j : Fin 25) (v : Lane) :
    (s.setLane i v).lanes[j] = if j = i then v else s.lanes[j] := by
  simp [Vector.getElem_set, Fin.ext_iff, eq_comm]

/-- Settles O47: at a lane's offset 8 bytes are served, which `State.setLane` stores; the rest is not permitted. -/
theorem writeLaneStoresOneLane : Obligations.WriteLaneStoresOneLane := by
  refine ⟨?stored, ?outside, ?size⟩
  case stored =>
    intro s rest i v
    refine ⟨((s.take rest).setLane i v).respond .ok, ?_, ?_, ?_, rfl⟩
    · rw [step_write, State.hostWrite_lane _ (laneOffset_toNat i)]
    · exact (State.setLane_lanes_getElem _ i i v).trans (if_pos rfl)
    · intro j hj
      exact (State.setLane_lanes_getElem _ i j v).trans (if_neg hj)
  case outside =>
    intro s rest off v hoff
    exact step_write_denied s rest (mt lane_offset_iff.1 hoff)
  case size =>
    intro s rest i v hv
    refine step_write_denied s rest ?_
    rw [writePermitted_lane_iff (laneOffset_toNat i)]
    exact fun hp => hp.elim hv

/-- Settles O48: at a lane's offset 8 bytes are served, the rest is not permitted. -/
theorem readLaneReturnsTheLane : Obligations.ReadLaneReturnsTheLane := by
  refine ⟨?served, ?outside, ?size⟩
  case served =>
    intro s rest i
    rw [step_read, State.hostRead_lane s (laneOffset_toNat i)]
  case outside =>
    intro s rest off hoff
    exact step_read_denied s rest (mt lane_offset_iff.1 hoff)
  case size =>
    intro s rest i size hsize
    exact step_read_denied s rest (mt (readPermitted_lane_iff (laneOffset_toNat i) size).1 hsize)

/-! ### The digest and the registers (R155, R156) -/

theorem State.hostRead_digest (s : State) {off : BitVec 24} {b : Fin 32} (ho : off.toNat = 0x120 + b.val) :
    s.hostRead off .one = .data (.b1 s.digest[b]) := by
  simp only [State.hostRead, ho, locate_digest]

/-- Settles O49: at a digest byte's offset the one-byte read is served, no other transaction is permitted. -/
theorem readDigestReturnsTheByte : Obligations.ReadDigestReturnsTheByte := by
  intro s rest b
  have ho : (BitVec.ofNat 24 (0x000120 + b.val)).toNat = 0x000120 + b.val := offset_toNat (by omega)
  refine ⟨?served, ?size, ?write⟩
  case served => rw [step_read, State.hostRead_digest s ho]
  case size =>
    intro size hsize
    exact step_read_denied s rest (mt (readPermitted_digest_iff ho size).1 hsize)
  case write =>
    intro v
    exact step_write_denied s rest (not_writePermitted_of_between (by omega) (by omega) (by omega) v)

theorem State.hostRead_reg (s : State) {off : BitVec 24} {r : CtlReg} (ho : off.toNat = r.offset) :
    s.hostRead off .four = .data (.b4 (s.readReg r)) := by
  simp only [State.hostRead, ho, locate_reg]

/-- The four registers stand between the command word and the digest. -/
theorem CtlReg.offset_bounds (r : CtlReg) : 0x000100 < r.offset ∧ r.offset < 0x000120 := by cases r <;> decide

/-- Settles O50: at a register's offset the 4-byte read is served, no other transaction is permitted. -/
theorem readRegisterReturnsItsValue : Obligations.ReadRegisterReturnsItsValue := by
  rintro s rest ⟨off, r⟩ hmap
  have ho : off.toNat = r.offset := by
    simp only [List.mem_cons, List.not_mem_nil, or_false, Prod.mk.injEq] at hmap
    obtain ⟨rfl, rfl⟩ | ⟨rfl, rfl⟩ | ⟨rfl, rfl⟩ | ⟨rfl, rfl⟩ := hmap <;> rfl
  obtain ⟨hlow, hhigh⟩ := r.offset_bounds
  have hwrite : ∀ v, ¬ writePermitted s.cfg off v :=
    not_writePermitted_of_between (by omega) (by omega) (by omega)
  refine ⟨?served, ?size, ?write⟩
  case served => rw [step_read, State.hostRead_reg s ho]
  case size =>
    intro size hsize
    exact step_read_denied s rest (mt (readPermitted_reg_iff ho size).1 hsize)
  case write =>
    intro v
    exact step_write_denied s rest (hwrite v)

end Sys2Proof.Machine

/-! PROOFS of the family 60_exceptions.md: how a command ends (R165, R171 to R173) and which transactions are answered
`BusError` (R170). -/

namespace Sys2Proof.Machine

open Sys2Proof.Claims

/-! ### The `STATUS` word after a success and after an error (R25, R172) -/

/-- The mask `0xF0` keeps the field `STICKY` of a `STATUS` word and nothing else. -/
theorem statusFields_and_mask : ∀ (k : BitVec 4) (e : BitVec 3),
    (0#24 ++ k ++ 0#1 ++ e) &&& 0xF0#32 = 0#24 ++ k ++ 0#1 ++ 0#3 := by
  decide

theorem Status.word_succeed (st : Status) : st.succeed.word = st.word &&& 0xF0#32 :=
  (statusFields_and_mask st.sticky.bits (errField st.err)).symm

theorem Status.word_err (st : Status) : st.word.extractLsb' 0 3 = errField st.err :=
  BitVec.extractLsb'_append_eq_right

/-- The sticky bit of the error with code `c` is bit `c - 1` of `STICKY`. -/
theorem Sticky.bits_mark (k : Sticky) (e : CmdError) : (k.mark e).bits = k.bits ||| 1#4 <<< (errorCode e - 1) := by
  obtain ⟨ibs, ill, len, blk⟩ := k
  revert ibs ill len blk
  cases e <;> decide

/-- Setting a bit of the field `STICKY` and the field `ERR` sets those bits of the `STATUS` word. -/
theorem statusFields_fail (k : BitVec 4) (e : CmdError) :
    (0#24 ++ (k ||| 1#4 <<< (errorCode e - 1)) ++ 0#1 ++ e.code : Word) =
      (0#24 ++ k ++ 0#1 ++ 0#3) ||| BitVec.ofNat 32 (errorCode e) ||| (1#32 <<< (4 + errorCode e - 1)) := by
  revert k
  cases e <;> decide

theorem Status.word_fail (st : Status) (e : CmdError) : (st.fail e).word =
    (st.word &&& 0xF0#32) ||| BitVec.ofNat 32 (errorCode e) ||| (1#32 <<< (4 + errorCode e - 1)) := by
  rw [← Status.word_succeed, Status.word, Status.fail_sticky, Sticky.bits_mark]
  exact statusFields_fail st.sticky.bits e

/-! ### The conditions of R165 are those under which a command fails -/

theorem commandError_of_succeeds {s t : State} {w : Word} {i : Instr} (hd : decode w = .command i) (h : Succeeds s i t) :
    commandError s.cfg w = none := by
  rw [commandError, hd]
  cases h with
  | pad hlt => exact if_neg (Nat.not_le.2 hlt)
  | absorb hk => exact if_neg (Nat.not_le.2 hk)
  | hash hlt => exact if_neg (Nat.not_le.2 hlt)
  | init | permute | squeeze | clrerr => rfl

theorem commandError_of_fails {s : State} {w : Word} {i : Instr} {e : CmdError} (hd : decode w = .command i)
    (h : Fails s i e) : commandError s.cfg w = some e := by
  rw [commandError, hd]
  cases h with
  | pad hle => exact if_pos hle
  | absorbLength hn => exact if_pos hn
  | absorbSlot hk => exact if_pos hk
  | hash hle => exact if_pos hle

/-- A success reports no error, and only `CLRERR` touches the rest of the error record. -/
theorem Succeeds.errorRecord {s t : State} {i : Instr} (h : Succeeds s i t) :
    t.status.err = none ∧ (i ≠ .clrerr → t.status = s.status.succeed ∧ t.errinfo = s.errinfo) := by
  cases h with
  | clrerr => exact ⟨rfl, fun hne => absurd rfl hne⟩
  | init | permute | absorb | squeeze => exact ⟨rfl, fun _ => ⟨rfl, rfl⟩⟩
  | pad | hash => simp

/-- Command issue ends in a success, and no condition of R165 holds, or in the error that the conditions name. -/
theorem issue_succeeds_or_raises (s : State) (w : Word) :
    (∃ i t, decode w = .command i ∧ Succeeds s i t ∧ commandError s.cfg w = none ∧
      s.issue w = .next (t.respond .ok)) ∨
    (∃ e, commandError s.cfg w = some e ∧ s.issue w = .next ((s.raise e w).respond .ok)) := by
  obtain ⟨t, ht, ⟨i, hd, hs⟩ | ⟨i, e, hd, hf, rfl⟩ | ⟨hd, rfl⟩⟩ := issue_cases s w
  · exact .inl ⟨i, t, hd, hs, commandError_of_succeeds hd hs, ht⟩
  · rw [(encode_of_decode hd).2] at ht
    exact .inr ⟨e, commandError_of_fails hd hf, ht⟩
  · exact .inr ⟨.illegalCommand, by rw [commandError, hd], ht⟩

/-- Settles O40: a success leaves the error record as R172 says, and an error is `State.raise`, which writes nothing but
`STATUS` and `ERRINFO`. -/
theorem everyCommandEndsInOneOfTwoWays : Obligations.EveryCommandEndsInOneOfTwoWays := by
  intro s w
  rcases issue_succeeds_or_raises s w with ⟨i, t, hd, hs, hnone, ht⟩ | ⟨e, herr, ht⟩
  · obtain ⟨hok, hrecord⟩ := hs.errorRecord
    refine ⟨t.respond .ok, ht, rfl, fun _ => ⟨?errField, ?record⟩, fun e he => nomatch hnone.symm.trans he⟩
    case errField =>
      exact (Status.word_err t.status).trans (congrArg errField hok)
    case record =>
      intro hclr
      obtain ⟨hstatus, hinfo⟩ := hrecord fun hi => hclr (hd.trans (congrArg Decoded.command hi))
      exact ⟨(congrArg Status.word hstatus).trans (Status.word_succeed s.status), hinfo⟩
  · refine ⟨(s.raise e w).respond .ok, ht, rfl, fun hnone => (nomatch herr.symm.trans hnone), fun f hf => ?_⟩
    obtain rfl : e = f := Option.some.inj (herr.symm.trans hf)
    exact ⟨Status.word_fail s.status e, rfl, rfl⟩

/-! ### Every transaction that the map permits is served (R170) -/

theorem exists_reg_of_readPermitted {c : Config} {off : BitVec 24} (h : readPermitted c off .four) :
    ∃ r : CtlReg, off.toNat = r.offset := by
  obtain ho | ho | ho | ho := h
  · exact ⟨.status, ho⟩
  · exact ⟨.mlen, ho⟩
  · exact ⟨.plen, ho⟩
  · exact ⟨.errinfo, ho⟩

theorem State.hostRead_of_permitted {s : State} {off : BitVec 24} {size : AccessSize}
    (h : readPermitted s.cfg off size) : ∃ d, s.hostRead off size = .data d := by
  cases size with
  | eight =>
    obtain ⟨i, hi, ho⟩ := h
    exact ⟨_, s.hostRead_lane (i := ⟨i, hi⟩) ho⟩
  | four =>
    obtain ⟨r, ho⟩ := exists_reg_of_readPermitted h
    exact ⟨_, s.hostRead_reg ho⟩
  | one =>
    obtain ⟨hlow, hhigh⟩ | ⟨hlow, hhigh⟩ := h
    · have hb : off.toNat - 0x120 < 32 := by omega
      exact ⟨_, s.hostRead_digest (b := ⟨off.toNat - 0x120, hb⟩) (Nat.add_sub_of_le hlow).symm⟩
    · exact ⟨_, s.hostRead_msg (Nat.add_sub_of_le hlow).symm (by omega)⟩

theorem State.hostWrite_of_permitted {s : State} {off : BitVec 24} {v : Data} (h : writePermitted s.cfg off v) :
    ∃ t : State, s.hostWrite off v = .next (t.respond .ok) := by
  cases v with
  | b8 u =>
    obtain ⟨i, hi, ho⟩ := h
    exact ⟨_, s.hostWrite_lane (i := ⟨i, hi⟩) ho u⟩
  | b4 w =>
    obtain rfl : off = 0x000100 := BitVec.eq_of_toNat_eq h
    obtain ⟨t, ht, -⟩ := issue_cases s w
    exact ⟨t, (s.hostWrite_cmd w).trans ht⟩
  | b1 u =>
    obtain ⟨hlow, hhigh⟩ := h
    exact ⟨_, s.hostWrite_msg (Nat.add_sub_of_le hlow).symm (by omega) u⟩

/-- Settles O51: what the map permits is served, and what it does not permit is none of what is served. -/
theorem onlyPermittedTransactionsAreServed : Obligations.OnlyPermittedTransactionsAreServed := by
  intro s rest off
  refine ⟨fun _ => step_read_denied s rest, ?read, fun _ => step_write_denied s rest, ?write⟩
  case read =>
    intro size h
    obtain ⟨d, hd⟩ := State.hostRead_of_permitted h
    exact ⟨d, by rw [step_read, hd]⟩
  case write =>
    intro v h
    obtain ⟨t, ht⟩ := State.hostWrite_of_permitted (s := s.take rest) h
    exact ⟨t.respond .ok, (step_write s rest off v).trans ht, rfl⟩

end Sys2Proof.Machine

/-! PROOFS of the family other: the encoding (R61, R66), the tables of the permutation (R80 to R83), the laws of the padding
(R100, R107), the hash pipeline (R135 to R141), the registers as the host reads them (R25 to R28), and the whole machine:
what a step serves, the invariant, and who writes what. -/

namespace Sys2Proof.Machine

open Sys2Proof.Claims

/-! ### Encoding -/

/-- Settles O1: each half is a lemma of the encoding family. -/
theorem decodeAndEncodeAgree : Obligations.DecodeAndEncodeAgree :=
  ⟨fun _ => decode_encode, fun _ _ => encode_of_decode⟩

/-- Settles O5: the words are closed terms, which the decoder evaluates. -/
theorem wordsWrittenFromTheFormatsDecode : Obligations.WordsWrittenFromTheFormatsDecode := by
  unfold Obligations.WordsWrittenFromTheFormatsDecode
  decide

/-! ### The tables of the permutation -/

/-- Each row of the table of R80 lists the positions `2^j - 1` at which the generator gives 1. -/
theorem roundBits_eq_generator : ∀ r : Fin 24, roundBits[r] =
    ((List.range 7).filter fun j => rcbit (j + 7 * r.val)).map fun j => 2 ^ j - 1 := by
  decide

theorem roundBits_sorted (r : Fin 24) : roundBits[r].SortedLT := by
  revert r
  decide

/-- The bits of a round constant that are 1 are those of its row. -/
theorem RC_getLsbD (r : Fin 24) (i : Fin 64) : (RC r).getLsbD i.val = decide (i.val ∈ roundBits[r]) := by
  have hbit : (roundBits[r].map (2 ^ ·)).sum.testBit i.val = decide (i.val ∈ roundBits[r]) := by
    rw [Bool.eq_iff_iff, decide_eq_true_iff, ← Nat.mem_bitIndices, Nat.bitIndices_sum_map_two_pow (roundBits_sorted r)]
  rw [RC, BitVec.getLsbD_ofNat, hbit, decide_eq_true i.isLt, Bool.true_and]

/-- Settles O8: a bit is 1 when its row lists it, and the rows are the generator's. -/
theorem roundConstantsComeFromTheGenerator : Obligations.RoundConstantsComeFromTheGenerator := by
  intro r i
  rw [RC_getLsbD, roundBits_eq_generator, Bool.eq_iff_iff]
  simp only [decide_eq_true_iff, List.mem_map, List.mem_filter, List.any_eq_true, Bool.and_eq_true, beq_iff_eq]
  refine exists_congr fun j => ?_
  rw [and_assoc, eq_comm (a := 2 ^ j - 1), and_comm (a := i.val = _)]

/-- Settles O9: the table compared with each of the 24 turns of the walk. -/
theorem rotationAmountsComeFromTheWalk : Obligations.RotationAmountsComeFromTheWalk :=
  ⟨rfl, by decide⟩

theorem PI_laneIndex : ∀ x y : Fin 5, PI (laneIndex x y) = laneIndex y (2 * x + 3 * y) := by decide

theorem PI_PISRC : ∀ i : Fin 25, PI (PISRC i) = i := by decide

theorem PI_eq_self_iff : ∀ i : Fin 25, PI i = i ↔ i = 0 := by decide

theorem repeat_eq_iterate {α : Type*} (f : α → α) (n : Nat) (x : α) : Nat.repeat f n x = f^[n] x := by
  induction n with
  | zero => rfl
  | succ n ih => rw [Nat.repeat, ih, Function.iterate_succ_apply']

/-- From index 1 the moves reach every index but 0, and come back to 1 after 24. -/
theorem PI_iterate_one : (∀ i : Fin 25, i ≠ 0 → ∃ a < 24, PI^[a] 1 = i) ∧ Function.IsPeriodicPt PI 24 1 := by decide

/-- Between two indices of the cycle through 1, the moves are those still to make from the one to the other. -/
theorem PI_single_cycle {i j : Fin 25} (hi : i ≠ 0) (hj : j ≠ 0) : ∃ n < 24, PI^[n] i = j := by
  obtain ⟨hreach, hperiod⟩ := PI_iterate_one
  obtain ⟨a, ha, rfl⟩ := hreach i hi
  obtain ⟨b, hb, rfl⟩ := hreach j hj
  have hn : ((b + 24 - a) % 24 + a) % 24 = b := by omega
  refine ⟨(b + 24 - a) % 24, Nat.mod_lt _ (by decide), ?_⟩
  rw [← Function.iterate_add_apply, ← hperiod.iterate_mod_apply, hn]

/-- Settles O10: the formula, the inverse and the fixed point by the table, the cycle by `PI_single_cycle`. -/
theorem destinationsAreABijectionWithOneFixedPoint : Obligations.DestinationsAreABijectionWithOneFixedPoint :=
  ⟨PI_laneIndex, fun i => ⟨PISRC_PI i, PI_PISRC i⟩, PI_eq_self_iff, fun _ hi _ hj => by
    simp only [repeat_eq_iterate, PI_single_cycle hi hj]⟩

/-! ### The laws of the padding -/

/-- Settles O18: the padded length is `paddedLength`, and the padding has at least one byte. -/
theorem paddedLengthIsTheNextMultiple : Obligations.PaddedLengthIsTheNextMultiple := by
  intro M
  have hpos := padCount_pos M.length
  have hadd := paddedLength_eq M.length
  rw [padMessage_length]
  exact ⟨rfl, Dvd.intro _ rfl, by omega, hadd⟩

theorem padding_congr {m n : Nat} (h : m % 136 = n % 136) : padding m = padding n := by
  have hcount : padCount m = padCount n := congrArg (rate - ·) h
  rw [padding, padding, hcount]

/-- The chunking law: whole blocks in front of a message stay in front of its padded form. -/
theorem padMessage_append {A : List Byte} (hA : A.length % 136 = 0) (B : List Byte) :
    padMessage (A ++ B) = A ++ padMessage B := by
  have hpad : padding (A ++ B).length = padding B.length := padding_congr (by rw [List.length_append]; omega)
  rw [padMessage_eq_append, padMessage_eq_append, hpad, List.append_assoc]

theorem padMessage_length_of_lt {M : List Byte} (h : M.length < 136) : (padMessage M).length = 136 := by
  rw [padMessage_length]
  simp only [paddedLength, blockCount, rate]
  omega

/-- Settles O21, by the chunking law for the blocks in front and the rest. -/
theorem onlyTheLastBlockIsPadded : Obligations.OnlyTheLastBlockIsPadded := by
  intro M q t hM ht
  have hfront : (M.take (136 * q)).length % 136 = 0 := by rw [List.length_take]; omega
  constructor
  · rw [← padMessage_append hfront, List.take_append_drop]
  · exact padMessage_length_of_lt (by rw [List.length_drop]; omega)

/-! ### `PAD` twice -/

/-- The cells the padding writes do not depend on those that were there. -/
theorem State.padBuffer_padBuffer {s : State} (h : s.msg.wf) (len : Nat) :
    (s.padBuffer len).padBuffer len = s.padBuffer len := by
  have hmsg : ((s.padBuffer len).padBuffer len).msg = (s.padBuffer len).msg := by
    have hwf := State.padBuffer_wf h len
    apply Memory.ext_of_wf (State.padBuffer_wf hwf len) hwf
    intro a
    rw [State.padBuffer_get?, State.padBuffer_get?]
    split_ifs <;> rfl
  apply State.ext <;> simp [hmsg]

/-- The padding reads no status, so it can be completed before or after. -/
theorem State.complete_padBuffer (s : State) (len : Nat) :
    (s.complete.padBuffer len).complete = (s.padBuffer len).complete := by
  have hmsg : (s.complete.padBuffer len).msg = (s.padBuffer len).msg :=
    State.padBuffer_msg_congr (by simp) (by simp) len
  apply State.ext <;> simp [hmsg, Status.succeed]

theorem Sticky.mark_mark (k : Sticky) (e : CmdError) : (k.mark e).mark e = k.mark e := by cases e <;> rfl

theorem State.raise_raise (s : State) (e : CmdError) (w : Word) : (s.raise e w).raise e w = s.raise e w := by
  simp [State.raise, Status.fail, Sticky.mark_mark]

/-- Settles O24: the padding in the buffer is written again as it is, and so is the error record. -/
theorem padTwiceIsPadOnce : Obligations.PadTwiceIsPadOnce := by
  intro s t len hinv h
  rcases exec_cases h with hs | ⟨e, hf, rfl⟩
  · cases hs with
    | pad hlt =>
      have hagain : len < (s.padBuffer len).complete.cfg.msgCap := by simpa using hlt
      rw [exec_eq_of_succeeds (.pad hagain), State.complete_padBuffer, State.padBuffer_padBuffer hinv.msg_wf]
  · cases hf with
    | pad hle =>
      have hagain : (s.raise .lengthOutOfRange (encode (.pad len))).cfg.msgCap ≤ len := hle
      rw [exec_eq_of_fails (.pad hagain), State.raise_raise]

/-! ### `HASH` is the sequence of the primitive commands -/

theorem execAll_append {is js : List Instr} {s t : State} (h : execAll is s = .next t) :
    execAll (is ++ js) s = execAll js t := by
  induction is generalizing s with
  | nil =>
    injection h with h
    rw [h, List.nil_append]
  | cons i is ih =>
    obtain ⟨u, hu⟩ := exec_total i s
    simp only [execAll, List.cons_append, hu] at h ⊢
    exact ih h

theorem execAll_cons {i : Instr} {is : List Instr} {s t : State} (h : exec i s = .next t) :
    execAll (i :: is) s = execAll is t := by
  rw [execAll, h]

/-- One turn of the sponge loop as two commands (R69). -/
theorem execAll_absorbp {s : State} {k : Nat} (hk : k < s.cfg.maxBlocks) : execAll (absorbp k) s =
    .next (s.setLanes (absorbPermute s.lanes (s.memRead (blockOffset k) rate))).complete := by
  rw [absorbp, execAll_cons (exec_eq_of_succeeds (.absorb hk)), execAll_cons (exec_eq_of_succeeds .permute)]
  rfl

/-- The turns of the sponge loop as commands: the lanes run through the slots of the buffer, which no turn changes. -/
theorem execAll_flatMap_absorbp {s : State} {n : Nat} (hn : n ≤ s.cfg.maxBlocks) :
    execAll ((List.range n).flatMap absorbp) s.complete =
      .next (s.setLanes (spongeLoop s.lanes (fun b => s.memRead (blockOffset b) rate) n)).complete := by
  induction n with
  | zero => rw [spongeLoop_zero]; rfl
  | succ n ih =>
    rw [List.range_succ, List.flatMap_append, execAll_append (ih (by omega)), List.flatMap_singleton,
      execAll_absorbp (by exact hn), spongeLoop_succ]
    rfl

/-- A message that fits has a slot for each of its blocks. -/
theorem blockCount_le_maxBlocks {c : Config} {len : Nat} (h : len < c.msgCap) : blockCount len ≤ c.maxBlocks := by
  simp only [Config.msgCap, rate] at h
  simp only [blockCount, rate]
  omega

/-- Settles O35: `PAD` and `INIT` leave the padded buffer and zero lanes, the turns compute the sponge loop, `SQUEEZE` is
the rest of `HASH`. -/
theorem hashEqualsThePrimitiveCommands : Obligations.HashEqualsThePrimitiveCommands := by
  intro s len
  constructor
  · intro hlt
    have hblocks : blockCount len ≤ ((s.padBuffer len).setLanes Lanes.zero).cfg.maxBlocks := by
      rw [State.setLanes_cfg, State.padBuffer_cfg]
      exact blockCount_le_maxBlocks hlt
    have hloop := execAll_flatMap_absorbp hblocks
    rw [keccak256, execAll_cons (exec_eq_of_succeeds (.pad hlt)), keccak256Tail,
      execAll_cons (exec_eq_of_succeeds .init), exec_eq_of_succeeds (.hash hlt)]
    refine (execAll_append hloop).trans ((execAll_cons (exec_eq_of_succeeds .squeeze)).trans ?_)
    rfl
  · intro hle
    have hpad := exec_eq_of_fails (.pad hle : Fails s (.pad len) _)
    exact ⟨_, hpad, rfl, execAll_cons hpad⟩

/-! ### A message in pieces -/

theorem blockOf_append_zero {B : List Byte} (hB : B.length = 136) (P : List Byte) : blockOf (B ++ P) 0 = B :=
  List.take_left' hB

theorem blockOf_append_succ {B : List Byte} (hB : B.length = 136) (P : List Byte) (n : Nat) :
    blockOf (B ++ P) (n + 1) = blockOf P n := by
  have hoff : blockOffset (n + 1) = B.length + blockOffset n := by
    simp only [blockOffset, rate, hB]
    omega
  rw [blockOf, hoff, List.drop_length_add_append, blockOf]

/-- The blocks of whole blocks joined are these blocks. -/
theorem map_blockOf_flatten {blocks : List (List Byte)} (h : ∀ b ∈ blocks, b.length = 136) :
    (List.range blocks.length).map (blockOf blocks.flatten) = blocks := by
  induction blocks with
  | nil => rfl
  | cons B blocks ih =>
    obtain ⟨hB, hblocks⟩ := List.forall_mem_cons.1 h
    rw [List.length_cons, List.range_succ_eq_map, List.map_cons, List.map_map, List.flatten_cons,
      blockOf_append_zero hB]
    congr 1
    refine Eq.trans (List.map_congr_left fun n _ => ?_) (ih hblocks)
    exact blockOf_append_succ hB _ n

theorem spongeLoop_eq_foldl (S : Lanes) (block : Nat → List Byte) (n : Nat) :
    spongeLoop S block n = ((List.range n).map block).foldl absorbPermute S := by
  rw [List.foldl_map, spongeLoop]

theorem length_flatten_of_blocks {blocks : List (List Byte)} (h : ∀ b ∈ blocks, b.length = 136) :
    blocks.flatten.length = 136 * blocks.length := by
  rw [List.length_flatten, List.map_congr_left h, List.map_const', List.sum_replicate_nat, Nat.mul_comm]

/-- Settles O36: the padded message is the blocks and the padded tail, joined. -/
theorem hashInPiecesIsTheHash : Obligations.HashInPiecesIsTheHash := by
  intro blocks tail hblocks htail
  have hlen := length_flatten_of_blocks hblocks
  have hpad : padMessage (blocks.flatten ++ tail) = (blocks ++ [padMessage tail]).flatten := by
    rw [padMessage_append (by omega), List.flatten_append, List.flatten_singleton]
  have hcount : blockCount (blocks.flatten ++ tail).length = (blocks ++ [padMessage tail]).length := by
    simp only [blockCount, rate, List.length_append, List.length_singleton]
    omega
  have hall : ∀ b ∈ blocks ++ [padMessage tail], b.length = 136 :=
    List.forall_mem_append.2 ⟨hblocks, List.forall_mem_singleton.2 (padMessage_length_of_lt htail)⟩
  rw [hashMessage, hpad, hcount, spongeLoop_eq_foldl, map_blockOf_flatten hall, List.foldl_append, List.foldl_cons,
    List.foldl_nil]

/-- Settles O37: the digest is the hash of the message read, and the padding is a function of the length. -/
theorem hashDependsOnTheMessageAlone : Obligations.HashDependsOnTheMessageAlone := by
  intro s s' t t' len hlt hlt' hmessage ht ht'
  rw [exec_eq_of_succeeds (.hash hlt)] at ht
  rw [exec_eq_of_succeeds (.hash hlt')] at ht'
  injection ht with ht
  injection ht' with ht'
  subst ht ht'
  have hread : s.memRead 0 len = s'.memRead 0 len := State.memRead_congr fun i hi => by
    rw [Nat.zero_add]; exact hmessage i hi
  refine ⟨?digest, by simp, by simp, by simp, ?bytes⟩
  case digest =>
    rw [State.complete_digest, State.complete_digest, State.digest_hashBuffer_padBuffer,
      State.digest_hashBuffer_padBuffer, hread]
  case bytes =>
    intro a ha
    simp only [State.msgByte_complete, State.msgByte_hashBuffer, State.msgByte_padBuffer]
    split_ifs with hpadding
    · rfl
    · exact hmessage a (by omega)

/-! ### The registers as the host reads them (R25, R27, R28) -/

/-- The fields of a `STATUS` word, at their bits. -/
theorem statusFields_bits : ∀ (k : BitVec 4) (e : BitVec 3),
    (0#24 ++ k ++ 0#1 ++ e).extractLsb' 8 24 = 0 ∧ (0#24 ++ k ++ 0#1 ++ e).getLsbD 3 = false ∧
    ∀ c < 4, (0#24 ++ k ++ 0#1 ++ e).getLsbD (4 + c) = k.getLsbD c := by
  decide

theorem Sticky.bits_getLsbD (k : Sticky) (e : CmdError) : k.bits.getLsbD (errorCode e - 1) = k.has e := by
  obtain ⟨ibs, ill, len, blk⟩ := k
  revert ibs ill len blk
  cases e <;> decide

theorem errorCode_pred_lt (e : CmdError) : errorCode e - 1 < 4 := by cases e <;> decide

theorem CmdError.code_toNat (e : CmdError) : e.code.toNat = errorCode e := by cases e <;> rfl

/-- A 24-bit length below eight zero bits. -/
theorem lengthWord_fields (v : BitVec 24) : (0#8 ++ v).extractLsb' 24 8 = 0 ∧ (0#8 ++ v).extractLsb' 0 24 = v :=
  ⟨BitVec.extractLsb'_append_eq_left, BitVec.extractLsb'_append_eq_right⟩

/-- Settles O39: `STATUS` by its fields, the two lengths as `lengthWord_fields` says. -/
theorem statusBitsAreWhereTheRegisterMapPutsThem : Obligations.StatusBitsAreWhereTheRegisterMapPutsThem := by
  intro s
  obtain ⟨hhigh, hthree, hsticky⟩ := statusFields_bits s.status.sticky.bits (errField s.status.err)
  have herr := Status.word_err s.status
  obtain ⟨hmlen, hmlen'⟩ := lengthWord_fields s.mlen
  obtain ⟨hplen, hplen'⟩ := lengthWord_fields s.plen
  refine ⟨hhigh, hthree, ?ok, ?code, ?sticky, hmlen, hmlen', hplen, hplen'⟩
  case ok =>
    intro hok
    exact herr.trans (congrArg errField hok)
  case code =>
    intro e he
    rw [State.readReg, herr, he]
    exact e.code_toNat
  case sticky =>
    intro e
    exact (hsticky _ (errorCode_pred_lt e)).trans (s.status.sticky.bits_getLsbD e)

/-! ### The fetch word, reads, and idle steps -/

theorem decode_of_decodeTableWord {nbits w : Nat} {i : Instr} (h : decodeTableWord nbits w = some i) :
    decode (tableWord nbits w) = .command i := by
  unfold decodeTableWord at h
  split at h
  next j hj => rw [hj, Option.some.inj h]
  next => cases h

/-- Settles O44: the placed word is a command word at the head of the port, in front of the events of `s`. -/
theorem fetchWordRunsNext : Obligations.FetchWordRunsNext := by
  intro s nbits w i h
  obtain ⟨u, hu⟩ := exec_total i s
  exact ⟨u, hu, (State.hostWrite_cmd s _).trans (State.issue_command (decode_of_decodeTableWord h) hu)⟩

/-- Settles O52: the response of a read depends on neither the port nor the last response. -/
theorem readsAndIdleStepsChangeNothing : Obligations.ReadsAndIdleStepsChangeNothing := by
  constructor
  · intro s rest off size
    exact ⟨s.hostRead off size, step_read s _ off size, step_read { s with response := _ } rest off size⟩
  · intro s h
    exact step_idle h

/-! ### What one step serves, in the words of the statements

`Steps` has a constructor for each path through the model. `StepEffect` keeps apart only what writes different parts of the
state, and says who wrote with `nextIsReset`, `nextCommand` and `commandError`. -/

/-- What a step does: the events that write nothing but the response, a reset, the two data writes, and the two ways a
command word ends. -/
inductive StepEffect (s : State) : State → Prop where
  | quiet (r : Option Response) : StepEffect s { s.take s.port.tail with response := r }
  | reset (h : nextIsReset s) : StepEffect s (s.take s.port.tail).applyReset
  | lane {i : Fin 25} {v : Lane} {rest : List HostEvent}
    (h : s.port = .write (BitVec.ofNat 24 (8 * i.val)) (.b8 v) :: rest) :
    StepEffect s (((s.take s.port.tail).setLane i v).respond .ok)
  | byte {a : Nat} {v : Byte} {rest : List HostEvent} (ha : a < s.cfg.msgCap)
    (h : s.port = .write (BitVec.ofNat 24 (0x001000 + a)) (.b1 v) :: rest) :
    StepEffect s (((s.take s.port.tail).setByte a v).respond .ok)
  | command {i : Instr} {u : State} (h : nextCommand s = some i) (hu : Succeeds (s.take s.port.tail) i u) :
    StepEffect s (u.respond .ok)
  | error {w : Word} {rest : List HostEvent} {e : CmdError} (h : s.port = .write 0x000100 (.b4 w) :: rest)
    (he : commandError s.cfg w = some e) : StepEffect s (((s.take s.port.tail).raise e w).respond .ok)

/-- An offset is written as its number. -/
theorem eq_ofNat_of_toNat {off : BitVec 24} {n : Nat} (h : off.toNat = n) : off = BitVec.ofNat 24 n := by
  rw [← h, BitVec.ofNat_toNat, BitVec.setWidth_eq]

theorem rest_eq_tail {s : State} {e : HostEvent} {rest : List HostEvent} (h : s.port = e :: rest) :
    rest = s.port.tail := by
  rw [h, List.tail]

theorem nextCommand_of_write {s : State} {off : BitVec 24} {w : Word} {rest : List HostEvent} {i : Instr}
    (h : s.port = .write off (.b4 w) :: rest) (ho : off.toNat = 0x100) (hd : decode w = .command i) :
    nextCommand s = some i := by
  simp [nextCommand, h, ho, hd]

theorem nextCommand_of_lane {s : State} {off : BitVec 24} {v : Lane} {rest : List HostEvent}
    (h : s.port = .write off (.b8 v) :: rest) : nextCommand s = none := by
  simp [nextCommand, h]

theorem nextCommand_of_reset {s : State} (h : nextIsReset s) : nextCommand s = none := by
  obtain ⟨rest, h⟩ := h
  simp [nextCommand, h]

/-- The inversion lemma of `step` in these words. -/
theorem step_effect {s t : State} (h : step s = .next t) : StepEffect s t := by
  cases step_cases h with
  | idle hp =>
    have hself : { s.take s.port.tail with response := s.response } = s := by
      apply State.ext <;> simp [hp]
    have hquiet := StepEffect.quiet (s := s) s.response
    rwa [hself] at hquiet
  | reset hp => exact rest_eq_tail hp ▸ .reset ⟨_, hp⟩
  | read hp => exact rest_eq_tail hp ▸ .quiet (some _)
  | denied hp => exact rest_eq_tail hp ▸ .quiet (some _)
  | succeeds hp ho hd ht => exact .command (nextCommand_of_write hp ho hd) (rest_eq_tail hp ▸ ht)
  | @fails rest off w i e hp ho hd he =>
    have herr : commandError s.cfg w = some e := commandError_of_fails (s := s.take rest) hd he
    rw [(encode_of_decode hd).2, rest_eq_tail hp]
    rw [eq_ofNat_of_toNat ho] at hp
    exact .error hp herr
  | illegal hp ho hd =>
    rw [rest_eq_tail hp]
    rw [eq_ofNat_of_toNat ho] at hp
    exact .error hp (by rw [commandError, hd])
  | lane hp ho =>
    rw [rest_eq_tail hp]
    exact .lane (eq_ofNat_of_toNat ho ▸ hp)
  | byte hp ho ha =>
    rw [rest_eq_tail hp]
    exact .byte ha (eq_ofNat_of_toNat ho ▸ hp)

/-! ### The invariant: kept by each operation, hence by each step -/

/-- A state with an empty buffer, lengths 0 and a clean record meets the invariant, whatever its parameter. -/
theorem State.inv_of_empty {s : State} (hmsg : s.msg = []) (hmlen : s.mlen = 0) (hplen : s.plen = 0)
    (hstatus : s.status = { err := none, sticky := Sticky.clear }) (hinfo : s.errinfo = 0) : s.Inv where
  msg_wf := by rw [hmsg]; exact List.Pairwise.nil
  msg_inside := by simp [hmsg]
  lengths := .inl ⟨hmlen, hplen⟩
  err_sticky := by simp [hstatus]
  errinfo_clear := fun _ => hinfo

/-- Settles O54: the state after reset is such a state. -/
theorem invariantHoldsAfterReset : Obligations.InvariantHoldsAfterReset :=
  State.inv_of_empty rfl rfl rfl rfl rfl

theorem State.inv_applyReset (s : State) : s.applyReset.Inv := State.inv_of_empty rfl rfl rfl rfl rfl

section
variable {s : State}

/-- A success reports no error; the rest of the record stays. -/
theorem State.Inv.complete (h : s.Inv) : s.complete.Inv :=
  { h with err_sticky := fun _ he => nomatch he }

/-- An error marks the bit of the error it reports, after which some bit is set. -/
theorem State.Inv.raise (h : s.Inv) (e : CmdError) (w : Word) : (s.raise e w).Inv :=
  { h with
    err_sticky := fun f hf => by
      obtain rfl : e = f := Option.some.inj hf
      simp [Sticky.has_mark]
    errinfo_clear := fun hclear => absurd hclear (Sticky.mark_ne_clear s.status.sticky e) }

/-- `CLRERR` clears the sticky bits, `ERRINFO` and, by its completion, `ERR`. -/
theorem State.Inv.complete_clearErrors (h : s.Inv) : s.clearErrors.complete.Inv :=
  { h with
    err_sticky := fun _ he => nomatch he
    errinfo_clear := fun _ => rfl }

theorem State.Inv.setByte (h : s.Inv) {a : Nat} (ha : a < s.cfg.msgCap) (v : Byte) : (s.setByte a v).Inv :=
  { h with
    msg_wf := Memory.wf_set h.msg_wf a v
    msg_inside := fun c hc => by
      rcases Memory.mem_set hc with rfl | hc
      · exact ha
      · exact h.msg_inside c hc }

/-- The padding of a message that fits stays inside the buffer and records lengths that R28 allows. -/
theorem State.Inv.padBuffer (h : s.Inv) {len : Nat} (hlt : len < s.cfg.msgCap) : (s.padBuffer len).Inv := by
  have hfits : paddedLength len ≤ s.cfg.msgCap := not_lt.1 ((paddedLength_le_msgCap_iff s.cfg len).2 hlt)
  obtain ⟨hmlen, hplen⟩ := s.padBuffer_lengths hfits
  refine ⟨State.padBuffer_wf h.msg_wf len, ?inside, .inr ?lengths, ?err, ?info⟩
  case inside =>
    rw [State.padBuffer_cfg]
    exact State.padBuffer_inside h.msg_inside hfits
  case lengths =>
    rw [hmlen, hplen, State.padBuffer_cfg]
    exact ⟨rfl, hfits⟩
  case err =>
    rw [State.padBuffer_status]
    exact h.err_sticky
  case info =>
    rw [State.padBuffer_status, State.padBuffer_errinfo]
    exact h.errinfo_clear

/-- The invariant speaks of neither the lanes nor the digest. -/
theorem State.Inv.setLanes (h : s.Inv) (l : Lanes) : (s.setLanes l).Inv := { h with }

theorem State.Inv.setDigest (h : s.Inv) (d : Digest) : (s.setDigest d).Inv := { h with }

theorem State.Inv.hashBuffer (h : s.Inv) (n : Nat) : (s.hashBuffer n).Inv := (h.setDigest _).setLanes _

theorem State.Inv.of_succeeds {t : State} {i : Instr} (h : s.Inv) (hs : Succeeds s i t) : t.Inv := by
  cases hs with
  | init | permute | absorb => exact (h.setLanes _).complete
  | squeeze => exact ((h.setDigest _).setLanes _).complete
  | pad hlt => exact (h.padBuffer hlt).complete
  | hash hlt => exact ((h.padBuffer hlt).hashBuffer _).complete
  | clrerr => exact h.complete_clearErrors

/-- The invariant speaks of neither the port nor the response. -/
theorem State.Inv.take (h : s.Inv) (rest : List HostEvent) : (s.take rest).Inv := { h with }

theorem State.Inv.respond (h : s.Inv) (r : Response) : (s.respond r).Inv := { h with }

end

/-- Settles O55, by the cases of `StepEffect`: each is made of operations that keep the invariant. -/
theorem stepKeepsTheInvariant : Obligations.StepKeepsTheInvariant := by
  intro s t hinv h
  have htake : (s.take s.port.tail).Inv := hinv.take _
  cases step_effect h with
  | quiet => exact { htake with }
  | reset => exact State.inv_applyReset _
  | lane => exact { htake with }
  | byte ha => exact (htake.setByte ha _).respond _
  | command _ hu => exact (htake.of_succeeds hu).respond _
  | error => exact (htake.raise _ _).respond _

/-! ### Every step completes -/

theorem step_total (s : State) : ∃ t, step s = .next t := by
  cases hp : s.port with
  | nil => exact ⟨s, step_idle hp⟩
  | cons e rest =>
    rw [step_serve hp]
    cases e with
    | read off size => exact ⟨_, rfl⟩
    | reset => exact ⟨_, rfl⟩
    | write off v =>
      rw [State.serve]
      rcases hostWrite_cases { s with port := rest } off v with
        ⟨w, -, -, hw⟩ | ⟨i, u, -, -, hw⟩ | ⟨a, u, -, -, -, hw⟩ | hw
      · obtain ⟨t, ht, -⟩ := issue_cases { s with port := rest } w
        exact ⟨_, hw.trans ht⟩
      · exact ⟨_, hw⟩
      · exact ⟨_, hw⟩
      · exact ⟨_, hw⟩

/-- A step takes the oldest event and leaves the parameter. -/
theorem StepEffect.frame {s t : State} (h : StepEffect s t) : t.port = s.port.tail ∧ t.cfg = s.cfg := by
  cases h with
  | command _ hu =>
    obtain ⟨hcfg, -, hport, -⟩ := exec_frame (exec_eq_of_succeeds hu)
    exact ⟨hport, hcfg⟩
  | quiet | reset | lane | byte | error => exact ⟨rfl, rfl⟩

/-- Settles O56: `step` answers in every case, and `StepEffect.frame` is the rest. -/
theorem everyStepCompletes : Obligations.EveryStepCompletes := by
  intro s
  obtain ⟨t, ht⟩ := step_total s
  exact ⟨t, ht, (step_effect ht).frame⟩

/-! ### Who clears a sticky bit -/

/-- Settles O42: a success other than `CLRERR` keeps the sticky bits, an error marks one. -/
theorem stickyBitsFallOnlyByClrerrOrReset : Obligations.StickyBitsFallOnlyByClrerrOrReset := by
  intro s t e h hset hclear
  cases step_effect h with
  | reset hreset => exact .inl hreset
  | @command i u hi hu =>
    by_cases hclr : i = .clrerr
    · exact .inr (hclr ▸ hi)
    · obtain ⟨hstatus, -⟩ := hu.errorRecord.2 hclr
      rw [State.respond_status, hstatus] at hclear
      exact absurd (hset.symm.trans hclear) (by simp)
  | error =>
    simp [Sticky.has_mark, hset] at hclear
  | quiet | lane | byte => exact absurd (hset.symm.trans hclear) (by simp)

/-! ### Who writes the lanes and the digest -/

theorem Succeeds.lanes_writer {s t : State} {i : Instr} (h : Succeeds s i t) (hne : t.lanes ≠ s.lanes) :
    i = .init ∨ i = .permute ∨ (∃ k, i = .absorb k 136) ∨ i = .squeeze ∨ ∃ len, i = .hash len := by
  cases h with
  | pad => exact absurd (State.padBuffer_lanes s _) hne
  | clrerr => exact absurd rfl hne
  | init | permute | absorb | squeeze | hash => simp

theorem Succeeds.digest_writer {s t : State} {i : Instr} (h : Succeeds s i t) (hne : t.digest ≠ s.digest) :
    i = .squeeze ∨ ∃ len, i = .hash len := by
  cases h with
  | pad => exact absurd (State.padBuffer_digest s _) hne
  | init | permute | absorb | clrerr => exact absurd rfl hne
  | squeeze | hash => simp

/-- `ABSORB` leaves the capacity lanes (R117). -/
theorem Succeeds.absorb_capacity {s t : State} {k n : Nat} (h : Succeeds s (.absorb k n) t) {i : Fin 25}
    (hi : 17 ≤ i.val) : t.lanes[i] = s.lanes[i] := by
  cases h with
  | absorb => exact xorBlock_getElem_capacity _ _ hi

/-- Settles O57: the lanes and the digest as they stand in each case of `StepEffect`. -/
theorem lanesAndDigestChangeOnlyByTheirWriters : Obligations.LanesAndDigestChangeOnlyByTheirWriters := by
  intro s t h
  have heffect := step_effect h
  refine ⟨?lanes, ?digest, ?capacity⟩
  case lanes =>
    intro hne
    cases heffect with
    | reset hreset => exact .inl hreset
    | lane hp => exact .inr (.inl ⟨_, _, _, hp⟩)
    | command hi hu => exact .inr (.inr ⟨_, hi, hu.lanes_writer hne⟩)
    | quiet | byte | error => exact absurd rfl hne
  case digest =>
    intro hne
    cases heffect with
    | reset hreset => exact .inl hreset
    | command hi hu => exact .inr ⟨_, hi, hu.digest_writer hne⟩
    | quiet | lane | byte | error => exact absurd rfl hne
  case capacity =>
    intro i hi hne k n habsorb
    cases heffect with
    | reset hreset => exact nomatch habsorb.symm.trans (nextCommand_of_reset hreset)
    | lane hp => exact nomatch habsorb.symm.trans (nextCommand_of_lane hp)
    | command hj hu =>
      obtain rfl := Option.some.inj (hj.symm.trans habsorb)
      exact hne (hu.absorb_capacity hi)
    | quiet | byte | error => exact absurd rfl hne

/-! ### Who writes the buffer -/

/-- A byte that a command changes lies in the padding of a `PAD` or a `HASH`. -/
theorem Succeeds.msgByte_writer {s t : State} {i : Instr} {a : Nat} (h : Succeeds s i t)
    (hne : t.msgByte a ≠ s.msgByte a) : ∃ len, (i = .pad len ∨ i = .hash len) ∧
      len < s.cfg.msgCap ∧ len ≤ a ∧ a < paddedLength len := by
  have hcovered {len : Nat} (hpad : (s.padBuffer len).msgByte a ≠ s.msgByte a) : len ≤ a ∧ a < paddedLength len := by
    by_contra hout
    exact hpad (s.msgByte_padBuffer_of_outside (by omega))
  cases h with
  | pad hlt => exact ⟨_, .inl rfl, hlt, hcovered hne⟩
  | hash hlt =>
    rw [State.msgByte_complete, State.msgByte_hashBuffer] at hne
    exact ⟨_, .inr rfl, hlt, hcovered hne⟩
  | init | permute | absorb | squeeze | clrerr => exact absurd rfl hne

/-- Settles O58: a host write changes the byte it names, a command only its padding. -/
theorem bufferBytesChangeOnlyByTheirWriters : Obligations.BufferBytesChangeOnlyByTheirWriters := by
  intro s t a h hne
  cases step_effect h with
  | reset hreset => exact .inl hreset
  | @byte b v rest hb hp =>
    have hab : a = b := by
      by_contra hab
      exact hne (by simp [State.msgByte_setByte, hab])
    exact .inr (.inl (hab ▸ ⟨hb, v, rest, hp⟩))
  | command hi hu =>
    obtain ⟨len, hlen, hin⟩ := hu.msgByte_writer hne
    exact .inr (.inr ⟨len, hlen.imp (by rintro rfl; exact hi) (by rintro rfl; exact hi), hin⟩)
  | quiet | lane | error => exact absurd rfl hne

/-! ### Who writes the registers -/

theorem Succeeds.length_writer {s t : State} {i : Instr} (h : Succeeds s i t) (hne : t.mlen ≠ s.mlen ∨ t.plen ≠ s.plen) :
    ∃ len, len < s.cfg.msgCap ∧ (i = .pad len ∨ i = .hash len) := by
  cases h with
  | pad hlt => exact ⟨_, hlt, .inl rfl⟩
  | hash hlt => exact ⟨_, hlt, .inr rfl⟩
  | init | permute | absorb | squeeze | clrerr => exact absurd hne (by simp)

/-- Settles O59: the lengths and `ERRINFO` as they stand in each case of `StepEffect`. -/
theorem registersChangeOnlyByTheirWriters : Obligations.RegistersChangeOnlyByTheirWriters := by
  intro s t h
  have heffect := step_effect h
  refine ⟨?lengths, ?info⟩
  case lengths =>
    intro hne
    cases heffect with
    | reset hreset => exact .inl hreset
    | command hi hu =>
      obtain ⟨len, hlt, hlen⟩ := hu.length_writer hne
      exact .inr ⟨len, hlt, hlen.imp (by rintro rfl; exact hi) (by rintro rfl; exact hi)⟩
    | quiet | lane | byte | error => exact absurd hne (by simp)
  case info =>
    intro hne
    cases heffect with
    | reset hreset => exact .inl hreset
    | @command i u hi hu =>
      by_cases hclr : i = .clrerr
      · exact .inr (.inl (hclr ▸ hi))
      · exact absurd (hu.errorRecord.2 hclr).2 hne
    | error hp he => exact .inr (.inr ⟨_, _, hp, by simp [he], rfl⟩)
    | quiet | lane | byte => exact absurd rfl hne

end Sys2Proof.Machine
